-- ==== Sys2Proof/Word.lean ====
section
/-! DEFINITION. The two widths of the unit: a byte (a register, a memory cell; 00_scope.md R5,
10_state.md R20, R23) and an instruction word (00_scope.md R4, 30_encoding.md R80). -/

namespace Sys2Proof

/-- A byte: what a general register and a memory cell hold (`REG_WIDTH = 8`, R5, R23). -/
abbrev Byte := BitVec 8

/-- An instruction word (`WORD_WIDTH = 16`, R4, R80). Bit 0 is the least significant (R12). -/
abbrev Word := BitVec 16

end Sys2Proof
end

