-- ==== Sys2Proof/Config.lean ====
section
/-! DEFINITION. The parameters of the unit (00_scope.md section 3). They are fixed when the unit is
constructed and are no state (10_state.md R28). The catalog, the one parameter that holds behaviours,
stands beside them in Machine/Engine.lean. -/

namespace Sys2Proof

/-- `FETCH_BOUND` (R10, R53): the last address an instruction fetch may touch is the last byte of the
loaded image, or the last byte of memory. -/
inductive FetchBound where
  | image
  | memory
deriving DecidableEq, Repr, Inhabited

/-- The parameters of a unit, by the names of the table in 00_scope.md section 3. -/
structure Config where
  /-- `MEM_SIZE`: bytes of memory (R7). -/
  memSize : Nat
  /-- `NREG`: number of general registers (R7). -/
  nreg : Nat
  /-- `STACK_DEPTH`: entries of the call stack (R7). -/
  stackDepth : Nat
  /-- `ENTRY`: the pc at construction and at RESET (R6). -/
  entry : Int
  /-- `LOAD_OFFSET`: the address of byte 0 of a loaded image (R6). -/
  loadOffset : Nat
  /-- `ARCH_ID`: the identifier a snapshot carries (R9). -/
  archId : String
  /-- `SNAP_VERSION`: the format version a snapshot carries (R9). -/
  snapVersion : Int
  /-- `FETCH_BOUND` (R10, R53). -/
  fetchBound : FetchBound
  /-- `LINK_BIAS`: added to the advanced pc to form the value a call pushes (R10, R224). -/
  linkBias : Int
deriving DecidableEq, Repr

/-- `INSTR_BYTES = 2` (R4): one instruction width, as the pc counts it. -/
def instrBytes : Int := 2

/-- `MAX_OPERANDS = 3` (R4). -/
def maxOperands : Nat := 3

/-- The constraint R7 places on the capacities: `NREG >= 1` (the other two are natural numbers). -/
def Config.valid (c : Config) : Bool := decide (1 ≤ c.nreg)

/-- The reference instance (right-hand column of the table in 00_scope.md section 3, R14), for either
value of `FETCH_BOUND`. PRESUMED capacities (log 1), DESIGN CHOICE offsets and tags (log 2),
`LINK_BIAS = 0` by the spec's decision (90_conflicts.md C1, log 4). -/
def Config.reference (b : FetchBound) : Config where
  memSize := 4096
  nreg := 16
  stackDepth := 16
  entry := 0x200
  loadOffset := 0x200
  archId := "RC6"
  snapVersion := 1
  fetchBound := b
  linkBias := 0

/-- `FETCH_BOUND` of the unit: OPEN in the spec (92_eei_decisions.md D3). A constant with no body, so
that no proof can see which of the two values it is. DESIGN CHOICE, safe (log 3). -/
opaque Config.openFetchBound : FetchBound

/-- The unit of this row: the reference instance with `FETCH_BOUND` left open. -/
def Config.unit : Config := Config.reference Config.openFetchBound

end Sys2Proof
end

