-- ==== Sys2Proof/Syntax.lean ====
section
/-! DEFINITION. What is written in an instruction word: the six instructions of RC6 (one constructor a
row of spec/opcode_table.json) and the record of an Op, which every catalog is a list of
(30_encoding.md R82). -/

namespace Sys2Proof

/-- The instructions of the reference catalog RC6 (44_reference_catalog.md R220), in catalog order.
Operand values are unsigned integers, as extraction gives them (30_encoding.md R90); WellFormed.lean
says which ones a word can carry. -/
inductive Instr where
  /-- `NOP`, format Z (R221). -/
  | nop
  /-- `RET`, format Z (R222). -/
  | ret
  /-- `JP nnn`, format A (R223). -/
  | jp (nnn : Nat)
  /-- `CALL nnn`, format A (R224). -/
  | call (nnn : Nat)
  /-- `SE VX, kk`, format RK (R225). -/
  | se (x kk : Nat)
  /-- `ADD VX, VY`, format RR (R226). -/
  | add (x y : Nat)
deriving DecidableEq, Repr

/-- The semantic tag of an operand (R84). It changes nothing in extraction. -/
inductive Tag where
  | register
  | address
  | constant
  | none
deriving DecidableEq, Repr

/-- An OperandSpec: which bits of the word hold the operand, and what it means (R82, R84). R84 reads a
spec tagged `none` as a placeholder with mask 0. The record does not tie the mask to the tag: a `none`
spec with another mask can be written, and its bits are extracted like any other's. DESIGN CHOICE,
unsafe for a catalog that has one (log 25). -/
structure OperandSpec where
  mask : Word
  tag : Tag
deriving DecidableEq, Repr

/-- An Op (R82). `β` is what its behaviour is given as: the syntax of an instruction in the decoder's
table (Decode.lean), a program of context primitives in an engine's catalog (Machine/Engine.lean).
The fifth part of R82, `fixed`, is computed from the operand masks (`Op.fixed`, Decode.lean). -/
structure Op (β : Type) where
  /-- Human-readable; takes no part in decoding or execution. -/
  mnemonic : String
  /-- The required value of the fixed bits. -/
  pattern : Word
  /-- In declared order. -/
  operands : List OperandSpec
  /-- What the operand values, in the order of `operands`, select. -/
  execute : List Nat → β

/-- The same Op with its behaviour read another way. -/
def Op.map {β γ : Type} (f : β → γ) (op : Op β) : Op γ where
  mnemonic := op.mnemonic
  pattern := op.pattern
  operands := op.operands
  execute := fun args => f (op.execute args)

/-- The two failures of dispatch (R135), each carrying the raw word. -/
inductive DecodeError where
  /-- No Op of the catalog matches (R242). -/
  | unknownOpcode (w : Word)
  /-- More than one Op matches (R243). -/
  | ambiguousOpcode (w : Word)
deriving DecidableEq, Repr

end Sys2Proof
end

