-- ==== Sys2Proof/WellFormed.lean ====
section
/-! DEFINITION. Which instructions a word of RC6 can carry: every operand fits its field
(30_encoding.md R85). The well-formedness of an Op and the validity of a catalog (R83, R138) are in
Machine/Catalog.lean. -/

namespace Sys2Proof

/-- Every operand fits its field: `nnn` 12 bits, `X` and `Y` 4 bits, `kk` 8 bits (R85). -/
def Instr.wf : Instr → Bool
  | .nop => true
  | .ret => true
  | .jp nnn => decide (nnn < 0x1000)
  | .call nnn => decide (nnn < 0x1000)
  | .se x kk => decide (x < 0x10) && decide (kk < 0x100)
  | .add x y => decide (x < 0x10) && decide (y < 0x10)

end Sys2Proof
end

