-- ==== Sys2Proof/Decode.lean ====
section
/-! DEFINITION. The decode path (41_decode_dispatch.md): operand extraction, matching, dispatch, the
decoder of RC6 and its encoder. All of it is combinational: a function of the word and the catalog
alone (R136). -/

namespace Sys2Proof

/-! ## The bytes of a word -/

/-- The word made of two bytes, the one at the lower address first: `byte[0] << 8 | byte[1]`
(20_memory.md R52). -/
def wordOfBytes (first second : Byte) : Word := first ++ second

/-- The byte of a word that lies at the lower address: bits 15:8 (R52, R81). -/
def firstByte (w : Word) : Byte := w.extractLsb' 8 8

/-- The byte of a word that lies at the higher address: bits 7:0 (R52, R81). -/
def secondByte (w : Word) : Byte := w.extractLsb' 0 8

/-! ## Operand extraction -/

/-- `ctz(m)`: the number of zero bits below the lowest set bit of `m` (R12). For `m = 0`, of which R12
says nothing, 0; `extract` does not depend on it there (R131 (a)). -/
def ctz (m : Word) : Nat := ((List.range 16).find? fun i => m.getLsbD i).getD 0

/-- `extract(word, mask) = (word & mask) >> ctz(mask)` (R130); a zero mask gives 0 and a mask with gaps
keeps them (R131, log 18). -/
def extract (w mask : Word) : Nat := ((w &&& mask) >>> ctz mask).toNat

/-- The union of the operand masks of a list of OperandSpecs. -/
def maskUnion (specs : List OperandSpec) : Word := specs.foldr (fun o m => o.mask ||| m) 0

/-- The fixed mask of an Op: the complement of the union of its operand masks (R132). -/
def Op.fixed {β : Type} (op : Op β) : Word := 0xffff ^^^ maskUnion op.operands

/-- `matches(op, word)`: true exactly when `word & op.fixed = op.pattern` (R133). -/
def Op.matchesWord {β : Type} (op : Op β) (w : Word) : Bool := w &&& op.fixed == op.pattern

/-- `decodeOperands(op, word)`: one value an OperandSpec, in declared order (R134), by its mask alone,
whatever its tag (R84, log 25). -/
def decodeOperands {β : Type} (op : Op β) (w : Word) : List Nat :=
  op.operands.map fun o => extract w o.mask

/-- `dispatch(word)`: the one Op of the catalog that the word selects (R135). The scan visits the whole
catalog. -/
def dispatch {β : Type} (catalog : List (Op β)) (w : Word) : Except DecodeError (Op β) :=
  match catalog.filter fun op => op.matchesWord w with
  | [op] => .ok op
  | [] => .error (.unknownOpcode w)
  | _ :: _ :: _ => .error (.ambiguousOpcode w)

/-! ## The table of RC6 -/

/-- The field `nnn`, bits 11:0 (R85, format A). -/
def fieldNnn : OperandSpec := ⟨0x0fff, .address⟩

/-- The field `X`, bits 11:8 (R85, formats RK and RR). -/
def fieldX : OperandSpec := ⟨0x0f00, .register⟩

/-- The field `Y`, bits 7:4 (R85, format RR). -/
def fieldY : OperandSpec := ⟨0x00f0, .register⟩

/-- The field `kk`, bits 7:0 (R85, format RK). -/
def fieldKk : OperandSpec := ⟨0x00ff, .constant⟩

/-- Row 1 of R86. -/
def opNop : Op (Option Instr) :=
  ⟨"NOP", 0x0000, [], fun | [] => some .nop | _ => none⟩

/-- Row 2 of R86. -/
def opRet : Op (Option Instr) :=
  ⟨"RET", 0x00ee, [], fun | [] => some .ret | _ => none⟩

/-- Row 3 of R86. -/
def opJp : Op (Option Instr) :=
  ⟨"JP", 0x1000, [fieldNnn], fun | [nnn] => some (.jp nnn) | _ => none⟩

/-- Row 4 of R86. -/
def opCall : Op (Option Instr) :=
  ⟨"CALL", 0x2000, [fieldNnn], fun | [nnn] => some (.call nnn) | _ => none⟩

/-- Row 5 of R86. -/
def opSe : Op (Option Instr) :=
  ⟨"SE", 0x3000, [fieldX, fieldKk], fun | [x, kk] => some (.se x kk) | _ => none⟩

/-- Row 6 of R86. -/
def opAdd : Op (Option Instr) :=
  ⟨"ADD", 0x8004, [fieldX, fieldY], fun | [x, y] => some (.add x y) | _ => none⟩

/-- The opcode map of RC6, in catalog order (R86, R220). Its encodings of RET and ADD and its field
extents are PRESUMED by the spec from Chip-8 (log 5). -/
def rc6 : List (Op (Option Instr)) := [opNop, opRet, opJp, opCall, opSe, opAdd]

/-! ## The decoder -/

/-- The instruction of RC6 a word is, or the decode fault it raises (R135, R87). The last case is for a
row that gets a number of operands that is not its own; `decodeOperands` gives it none such. -/
def decode (w : Word) : Except DecodeError Instr :=
  match dispatch rc6 w with
  | .error e => .error e
  | .ok op =>
    match op.execute (decodeOperands op w) with
    | some i => .ok i
    | none => .error (.unknownOpcode w)

/-- Decoding from the two bytes of an instruction, the one at the lower address first. -/
def decodeBytes (first second : Byte) : Except DecodeError Instr := decode (wordOfBytes first second)

/-- A second decoder, by the digits of the word (30_encoding.md R81), such as R141 allows in place of
the scan. The model runs `decode`; that the two agree is an obligation. -/
def decodeByDigits (w : Word) : Except DecodeError Instr :=
  let n := w.toNat
  match n / 0x1000 with
  | 0 => if n = 0 then .ok .nop else if n = 0xee then .ok .ret else .error (.unknownOpcode w)
  | 1 => .ok (.jp (n % 0x1000))
  | 2 => .ok (.call (n % 0x1000))
  | 3 => .ok (.se (n / 0x100 % 0x10) (n % 0x100))
  | 8 => if n % 0x10 = 4 then .ok (.add (n / 0x100 % 0x10) (n / 0x10 % 0x10)) else .error (.unknownOpcode w)
  | _ => .error (.unknownOpcode w)

/-! ## The encoder -/

/-- The word of a well-formed instruction, by the column "word" of the table of 30_encoding.md R89. -/
def encode : Instr → Word
  | .nop => 0x0000
  | .ret => 0x00ee
  | .jp nnn => 0x1000 ||| BitVec.ofNat 16 nnn
  | .call nnn => 0x2000 ||| BitVec.ofNat 16 nnn
  | .se x kk => 0x3000 ||| (BitVec.ofNat 16 x <<< 8) ||| BitVec.ofNat 16 kk
  | .add x y => 0x8004 ||| (BitVec.ofNat 16 x <<< 8) ||| (BitVec.ofNat 16 y <<< 4)

/-- The row of `rc6` an instruction is written with. -/
def Instr.row : Instr → Op (Option Instr)
  | .nop => opNop
  | .ret => opRet
  | .jp _ => opJp
  | .call _ => opCall
  | .se _ _ => opSe
  | .add _ _ => opAdd

/-- The operand values of an instruction, in the order of its row. -/
def Instr.operandValues : Instr → List Nat
  | .nop => []
  | .ret => []
  | .jp nnn => [nnn]
  | .call nnn => [nnn]
  | .se x kk => [x, kk]
  | .add x y => [x, y]

/-! ## The host's numbering of an instruction's bits -/

/-- The one word of an instruction that spec/opcode_table.json numbers as `w` in `nbits` bits. Every
instruction is one 16-bit word (R80), so bit 0 of the table is bit 0 of the word. -/
def tableWord (nbits w : Nat) : Word := BitVec.ofNat 16 (w % 2 ^ nbits)

/-- The instruction the decoder reads from a row's bits, laid out in bytes as the unit stores them
(R52). An instruction has 16 bits and no more (R80). -/
def decodeTableWord (nbits w : Nat) : Option Instr :=
  if nbits ≤ 16 then
    match decodeBytes (firstByte (tableWord nbits w)) (secondByte (tableWord nbits w)) with
    | .ok i => some i
    | .error _ => none
  else none

end Sys2Proof
end

