-- ==== Sys2Proof/Machine/State.lean ====
section
/-! DEFINITION. The state of the unit (10_state.md), the faults a step can raise and the refusals of the
model, and the state at construction (R30). -/

namespace Sys2Proof.Machine

/-- The run state `RS` (10_state.md R26). -/
inductive RunState where
  /-- No program is installed and no fault is latched. -/
  | unloaded
  /-- A program is installed; no RESET or RESTORE has followed. -/
  | loaded
  /-- Reset or restored, no step taken since. -/
  | ready
  /-- At least one step has completed since. -/
  | running
  /-- A STOP was accepted while RUNNING. -/
  | halted
  /-- A step raised a fault; the fault record holds it. -/
  | faulted
deriving DecidableEq, Repr

/-- The five step faults with their data (60_exceptions.md R240, R241). Inside a step they are how a
phase or a primitive raises (`raise K(info)`, 00_scope.md R13). The unit TAKES every one of them
(`takeFault`, Ops.lean): the step's outcome is then a next state with RS = FAULTED, so `step` itself
never ends in one. Safe: each is the spec's own fault, with the spec's own state after it (log 6). -/
inductive Fault where
  /-- Code 1: no Op matches the word. Raised by the dispatch phase (R242). Safe. -/
  | unknownOpcode (w : Word)
  /-- Code 2: more than one Op matches. Raised by the dispatch phase; not reachable with a valid
  catalog (R243, R140). Safe. -/
  | ambiguousOpcode (w : Word)
  /-- Code 3: the address of a fetch or of a memory primitive is out of bounds (R244). Safe. -/
  | boundsError (a : Int)
  /-- Code 4: `push v` on a full stack (R245). Safe. -/
  | stackOverflow (v : Int)
  /-- Code 5: `pop` of an empty stack (R246). Safe. -/
  | stackUnderflow
deriving DecidableEq, Repr

/-- The reasons the model gives a situation no meaning. Each but the first is one where the spec says
in so many words that a model refuses. -/
inductive Refusal where
  /-- An arm of `exec` that has no meaning yet. Raised by Dispatch.lean only (no arm does now). Safe. -/
  | notModelled (mnemonic : String)
  /-- STEP or RUN in run state LOADED (R184, 93_implementation_defined.md U10). Raised by the
  sequencer and by RUN. Safe (log 9). -/
  | stepInLoaded
  /-- A register read or write with an index outside 0 to NREG - 1 (R153, U1). Raised by the register
  ports; no decoded operand reaches it (R142). Safe (log 10). -/
  | registerOutOfRange (i : Int)
  /-- A LOAD whose image does not fit (R197, U4). Raised by LOAD. Safe (log 16). -/
  | imageTooLarge (length : Nat)
  /-- A RESTORE whose tags match but whose payload has the wrong shape (R192, U5). Raised by RESTORE.
  Safe (log 16). -/
  | malformedSnapshot
  /-- Construction with a catalog or parameters that fail validation (R139). Raised by `construct`.
  Safe (log 20). -/
  | invalidCatalog
deriving DecidableEq, Repr

/-- The `kind` of a fault record (R27, R241). -/
inductive FaultKind where
  | unknownOpcode
  | ambiguousOpcode
  | boundsError
  | stackOverflow
  | stackUnderflow
deriving DecidableEq, Repr

/-- The `info` of a fault record: the fault's own datum (R241, column "info recorded"). -/
inductive FaultInfo where
  /-- The raw word. -/
  | word (w : Word)
  /-- The offending address. -/
  | address (a : Int)
  /-- The value that was to be pushed. -/
  | value (v : Int)
  /-- None. -/
  | nothing
deriving DecidableEq, Repr

/-- The record `(kind, fpc, fword, info)` of a latched fault (R27). -/
structure FaultRecord where
  kind : FaultKind
  /-- The pc when the faulting step began. -/
  fpc : Int
  /-- The fetched word, or none when the fault arose in the fetch. -/
  fword : Option Word
  info : FaultInfo
deriving DecidableEq, Repr

/-- The contents of `M`: the bytes that are not what an unlisted address reads as, by rising address
(`Memory.wf`, Ops.lean). -/
abbrev Memory := List Host.Cell

/-- What an address that is not listed reads as: 0, the content the spec gives every byte at
construction, and every byte outside the image after LOAD and RESET (R23, R185, R187). -/
def Memory.unlisted : Byte := 0

/-- Everything the spec gives the machine (10_state.md R20 to R27). -/
structure State where
  /-- The register file `x`, `x[0]` first (R20); its last entry is `FLAG` (R21). -/
  regs : List Byte
  /-- The program counter, an integer without bound (R22). -/
  pc : Int
  /-- The memory `M` (R23). -/
  mem : Memory
  /-- The call stack, `stack[0]`, the oldest entry, first (R24). -/
  stack : List Int
  /-- Whether a LOAD has succeeded (R25). -/
  loaded : Bool
  /-- `PLEN`, the length in bytes of the loaded image (R25). -/
  plen : Nat
  /-- The run state `RS` (R26). -/
  rs : RunState
  /-- The fault record `FR` (R27). -/
  fr : Option FaultRecord
deriving DecidableEq, Repr

/-- The state at construction (R30); every value is the spec's. -/
def State.constructed (c : Config) : State where
  regs := List.replicate c.nreg 0
  pc := c.entry
  mem := []
  stack := []
  loaded := false
  plen := 0
  rs := .unloaded
  fr := none

/-- The unit right after power-on (R30). A RESET given to it leaves it as it is (R187, vector H12). -/
def State.reset : State := State.constructed Config.unit

end Sys2Proof.Machine
end

