-- ==== Sys2Proof/Machine/Flags.lean ====
section
/-! DEFINITION. The fixed-width arithmetic block and its overflow flag (40_fixed_width_arithmetic.md):
pure, total functions over the integers (R116). The block has no other operation (R118). -/

namespace Sys2Proof.Machine

/-- The MathFlag (R112). An output of the block, never state. -/
inductive MathFlag where
  | ok
  | overflow
deriving DecidableEq, Repr

/-- The number a MathFlag is stored as: `OK` is 0, `OVERFLOW` is 1 (R112). -/
def MathFlag.toInt : MathFlag → Int
  | .ok => 0
  | .overflow => 1

/-- `cast(n, w) = n mod 2^w`, floored, so in `[0, 2^w)` (R111). -/
def castTo (n : Int) (w : Nat) : Int := n % 2 ^ w

/-- `wrap(n, w)`: the cast, with `OVERFLOW` exactly when the cast changed the value (R113). -/
def wrap (n : Int) (w : Nat) : Int × MathFlag :=
  (castTo n w, if castTo n w = n then .ok else .overflow)

/-- `add(a, b, w) = wrap(a + b, w)` (R114). -/
def addWrap (a b : Int) (w : Nat) : Int × MathFlag := wrap (a + b) w

/-- `sub(a, b, w) = wrap(a - b, w)` (R115). -/
def subWrap (a b : Int) (w : Nat) : Int × MathFlag := wrap (a - b) w

/-- A register or memory cell holding `cast(v, 8)` (R152, R56). -/
def byteOfInt (v : Int) : Byte := BitVec.ofNat 8 (castTo v 8).toNat

end Sys2Proof.Machine
end

