-- ==== Sys2Proof/Machine/Ops.lean ====
section
/-! DEFINITION. The named operations over memory, the call stack and the pc, the instruction fetch,
taking a fault and clearing one (20_memory.md, 42_context_primitives.md, 43_step_and_host_commands.md
R183, 60_exceptions.md). -/

namespace Sys2Proof.Machine

/-! ## Memory as data -/

/-- The byte at address `k`. -/
def Memory.read : Memory → Nat → Byte
  | [], _ => Memory.unlisted
  | (a, v) :: m, k => if k = a then v else Memory.read m k

/-- The memory with byte `v` at address `k`, in canonical form: a byte that an unlisted address would
read as is not listed. -/
def Memory.write : Memory → Nat → Byte → Memory
  | [], k, v => if v = Memory.unlisted then [] else [(k, v)]
  | (a, x) :: m, k, v =>
    if k < a then
      if v = Memory.unlisted then (a, x) :: m else (k, v) :: (a, x) :: m
    else if k = a then
      if v = Memory.unlisted then m else (k, v) :: m
    else (a, x) :: Memory.write m k v

/-- Addresses strictly rising from `lo` on, and no entry that an unlisted address would read as. -/
def Memory.wfFrom (lo : Nat) : Memory → Bool
  | [] => true
  | (a, v) :: m => decide (lo ≤ a) && decide (v ≠ Memory.unlisted) && Memory.wfFrom (a + 1) m

/-- The canonical form of a memory. -/
def Memory.wf (m : Memory) : Bool := Memory.wfFrom 0 m

/-- No byte is listed at or beyond address `n`. -/
def Memory.below (n : Nat) (m : Memory) : Bool := m.all fun cell => decide (cell.1 < n)

/-- Bytes laid out from address `base` on, the first at the lowest address (R62, R185). -/
def Memory.install (m : Memory) (base : Nat) : List Byte → Memory
  | [] => m
  | b :: bs => Memory.install (m.write base b) (base + 1) bs

/-- What is left of a memory when every byte outside the `len` addresses from `base` on becomes 0
(R187). -/
def Memory.keepWindow (m : Memory) (base len : Nat) : Memory :=
  m.filter fun cell => decide (base ≤ cell.1) && decide (cell.1 < base + len)

/-! ## Named updates of the state -/

/-- The state with register `i` holding `v`. -/
def State.setReg (s : State) (i : Nat) (v : Byte) : State := { s with regs := s.regs.set i v }

/-- The state with memory byte `a` holding `v`. -/
def State.setByte (s : State) (a : Nat) (v : Byte) : State := { s with mem := s.mem.write a v }

/-- The state with another call stack. -/
def State.setStack (s : State) (stack : List Int) : State := { s with stack := stack }

/-- The end of a step that completes: `RS <- RUNNING` (R181). -/
def State.complete (s : State) : State := { s with rs := .running }

/-! ## The program counter -/

/-- `jump(t)`: `pc <- t`, no check of any kind (R160). -/
def jump (s : State) (t : Int) : State := { s with pc := t }

/-- `hop(d)`: `pc <- pc + 2 * d`, over the integers (R161). -/
def hop (s : State) (d : Int) : State := { s with pc := s.pc + instrBytes * d }

/-- `hopForwards(n)` is `hop(n)` (R162). -/
def hopForwards (s : State) (n : Int) : State := hop s n

/-- `hopBackwards(n)` is `hop(-n)` (R162). -/
def hopBackwards (s : State) (n : Int) : State := hop s (-n)

/-- The advance, between dispatch and execute: `pc <- pc + 2` (R163). -/
def advance (s : State) : State := { s with pc := s.pc + instrBytes }

/-! ## Data access -/

/-- Whether a data access may touch address `a`: 0 to `MEM_SIZE - 1` (R55, R56). -/
def inMemory (c : Config) (a : Int) : Bool := decide (0 ≤ a) && decide (a ≤ (c.memSize : Int) - 1)

/-- `MemRead(a, 1)` (R55). -/
def memRead (c : Config) (s : State) (a : Int) : Except Fault Byte :=
  if inMemory c a then .ok (s.mem.read a.toNat) else .error (.boundsError a)

/-- `MemRead(a, 2) = MemRead(a, 1) * 256 + MemRead(a+1, 1)`, the big-endian pair (R55). -/
def memReadPair (c : Config) (s : State) (a : Int) : Except Fault Word :=
  match memRead c s a with
  | .error f => .error f
  | .ok first =>
    match memRead c s (a + 1) with
    | .error f => .error f
    | .ok second => .ok (wordOfBytes first second)

/-- `MemWrite(a, 1, v)`: `M[a] <- cast(v, 8)` (R56). -/
def memWrite (c : Config) (s : State) (a v : Int) : Except Fault State :=
  if inMemory c a then .ok (s.setByte a.toNat (byteOfInt v)) else .error (.boundsError a)

/-! ## Instruction fetch -/

/-- `FETCH_LAST` under a value of `FETCH_BOUND`, for an image of `plen` bytes (R53). -/
def fetchLast (c : Config) (plen : Nat) : FetchBound → Int
  | .image => c.loadOffset + plen - 1
  | .memory => c.memSize - 1

/-- Whether a value of `FETCH_BOUND` forbids a fetch whose second byte is at `a`: it lies beyond
`FETCH_LAST` (R53), or the bound is IMAGE and the image has no byte, where every fetch faults
(43_step_and_host_commands.md R197). R53's formula alone would let a fetch below the load offset of an
empty image succeed; R197 speaks of that very case and is followed (DEDUCED, unsafe, log 26). -/
def beyondBound (c : Config) (plen : Nat) (a : Int) (b : FetchBound) : Bool :=
  decide (fetchLast c plen b < a) || (decide (b = .image) && decide (plen = 0))

/-- Whether the unit's bound forbids a fetch whose second byte is at `a`. Where the two values of
`FETCH_BOUND` agree, that one answer; `FETCH_BOUND` itself is asked only where they differ, so that a
fetch that both allow can be evaluated although the unit's `FETCH_BOUND` is open. It equals the plain
question (`beyondFetchLast_eq`, Laws/Ops.lean). -/
def beyondFetchLast (c : Config) (plen : Nat) (a : Int) : Bool :=
  if beyondBound c plen a .image = beyondBound c plen a .memory then beyondBound c plen a .image
  else beyondBound c plen a c.fetchBound

/-- `Fetch(a)`: the big-endian word at `a`, any alignment (R53, R54, R197). -/
def fetch (c : Config) (s : State) (a : Int) : Except Fault Word :=
  if s.loaded = false then .error (.boundsError a)
  else if a < 0 then .error (.boundsError a)
  else if beyondFetchLast c s.plen (a + 1) then .error (.boundsError a)
  else .ok (wordOfBytes (s.mem.read a.toNat) (s.mem.read (a + 1).toNat))

/-! ## The call stack -/

/-- `push(v)` (R155). -/
def push (c : Config) (s : State) (v : Int) : Except Fault State :=
  if s.stack.length = c.stackDepth then .error (.stackOverflow v) else .ok (s.setStack (s.stack ++ [v]))

/-- `pop()` (R156): the value, and the state without it. -/
def pop (s : State) : Except Fault (Int × State) :=
  match s.stack.getLast? with
  | none => .error .stackUnderflow
  | some v => .ok (v, s.setStack s.stack.dropLast)

/-- `top()`: the newest entry, `none` on an empty stack (R157). -/
def top (s : State) : Option Int := s.stack.getLast?

/-- `inspect()`: the whole stack, bottom first (R157). -/
def inspect (s : State) : List Int := s.stack

/-! ## Taking a fault, and clearing one -/

/-- The `kind` a fault is recorded under (R241). -/
def Fault.kind : Fault → FaultKind
  | .unknownOpcode _ => .unknownOpcode
  | .ambiguousOpcode _ => .ambiguousOpcode
  | .boundsError _ => .boundsError
  | .stackOverflow _ => .stackOverflow
  | .stackUnderflow => .stackUnderflow

/-- The `info` a fault is recorded with (R241, R242 to R246). -/
def Fault.info : Fault → FaultInfo
  | .unknownOpcode w => .word w
  | .ambiguousOpcode w => .word w
  | .boundsError a => .address a
  | .stackOverflow v => .value v
  | .stackUnderflow => .nothing

/-- The code of a fault (R241). -/
def FaultKind.code : FaultKind → Nat
  | .unknownOpcode => 1
  | .ambiguousOpcode => 2
  | .boundsError => 3
  | .stackOverflow => 4
  | .stackUnderflow => 5

/-- The step fault a failure of dispatch is (R135). -/
def Fault.ofDecode : DecodeError → Fault
  | .unknownOpcode w => .unknownOpcode w
  | .ambiguousOpcode w => .ambiguousOpcode w

/-- TAKING A FAULT (R183, R250). `s` is the state when the faulting step began: `x`, `M`, `stack`, `pc`,
`loaded` and `PLEN` keep the values they have in it; `RS` becomes FAULTED and `FR` records the fault,
its pc and its word. There is no handler and no control transfer. -/
def takeFault (s : State) (f : Fault) (w : Option Word) : State :=
  { s with rs := .faulted, fr := some ⟨f.kind, s.pc, w, f.info⟩ }

/-- CLEARING A FAULT, the only return from one (R252), as RESET and RESTORE do it: `FR <- none` and
`RS <- READY` if a program is loaded, `UNLOADED` if not (R187, R192). -/
def clearFault (s : State) : State :=
  { s with rs := if s.loaded then .ready else .unloaded, fr := none }

end Sys2Proof.Machine
end

