-- ==== Sys2Proof/Machine/Operands.lean ====
section
/-! DEFINITION. What an operand value stands for: the register file ports (42_context_primitives.md R151
to R153), the flag register (10_state.md R21), an address, a constant. -/

namespace Sys2Proof.Machine

/-- Whether register `i` exists: `0 <= i <= NREG - 1` (R151). -/
def hasReg (c : Config) (i : Int) : Bool := decide (0 ≤ i) && decide (i ≤ (c.nreg : Int) - 1)

/-- Register read `x[i]` (R151). An index outside the file is outside the spec: refused (R153). -/
def readReg (c : Config) (s : State) (i : Int) : Except Refusal Byte :=
  if hasReg c i then .ok (s.regs.getD i.toNat 0) else .error (.registerOutOfRange i)

/-- Register write `x[i] <- v`: register `i` takes `cast(v, 8)` (R152). -/
def writeReg (c : Config) (s : State) (i v : Int) : Except Refusal State :=
  if hasReg c i then .ok (s.setReg i.toNat (byteOfInt v)) else .error (.registerOutOfRange i)

/-- The index of `FLAG`, the last register (R21). -/
def flagIndex (c : Config) : Int := (c.nreg : Int) - 1

/-- A register operand: the index of a register (R84, R90). -/
def registerOperand (v : Nat) : Int := v

/-- An address operand: a byte address as it stands, never scaled (R90). -/
def addressOperand (v : Nat) : Int := v

/-- A constant operand: an unsigned integer, never sign-extended (R90). -/
def constantOperand (v : Nat) : Int := v

end Sys2Proof.Machine
end

