-- ==== Sys2Proof/Machine/Context.lean ====
section
/-! DEFINITION. The execution context (42_context_primitives.md): what an Op's behaviour can do, as a
program of the context's primitives, and the execute phase of a step. -/

namespace Sys2Proof.Machine

/-- A behaviour: the primitives of R150, in an order it chooses, each call's answer handed to what
follows (R164). It has no way to reach the run state, the fault record, `loaded`, `PLEN`, the catalog
or a host command (R150, R166), and it always ends (log 15). The arithmetic block is pure and needs no
constructor. -/
inductive Behaviour where
  /-- The behaviour is over. -/
  | done
  /-- `x[i]` (R151). -/
  | readReg (i : Int) (k : Byte → Behaviour)
  /-- `x[i] <- v` (R152). -/
  | writeReg (i v : Int) (k : Behaviour)
  /-- `MemRead(a, 1)` (R154). -/
  | memRead (a : Int) (k : Byte → Behaviour)
  /-- `MemRead(a, 2)` (R154, R55). -/
  | memReadPair (a : Int) (k : Word → Behaviour)
  /-- `MemWrite(a, 1, v)` (R154). -/
  | memWrite (a v : Int) (k : Behaviour)
  /-- `push(v)` (R155). -/
  | push (v : Int) (k : Behaviour)
  /-- `pop()` (R156). -/
  | pop (k : Int → Behaviour)
  /-- `top()` (R157). -/
  | top (k : Option Int → Behaviour)
  /-- `inspect()` (R157). -/
  | inspect (k : List Int → Behaviour)
  /-- The pc read: the address of the next sequential instruction (R159). -/
  | readPc (k : Int → Behaviour)
  /-- `jump(t)` (R160). -/
  | jump (t : Int) (k : Behaviour)
  /-- `hop(d)` (R161). -/
  | hop (d : Int) (k : Behaviour)

/-- `hopForwards(n)` in a behaviour (R162). -/
def Behaviour.hopForwards (n : Int) (k : Behaviour) : Behaviour := .hop n k

/-- `hopBackwards(n)` in a behaviour (R162). -/
def Behaviour.hopBackwards (n : Int) (k : Behaviour) : Behaviour := .hop (-n) k

/-- A behaviour run against the live state: each call takes effect at once (R150, R164). A primitive
that raises ends it in that fault; a register index out of range in a refusal (R153). -/
def Behaviour.run (c : Config) : Behaviour → State → Host.Outcome State Fault Refusal
  | .done, s => .next s
  | .readReg i k, s =>
    match Machine.readReg c s i with
    | .ok v => (k v).run c s
    | .error r => .refused r
  | .writeReg i v k, s =>
    match Machine.writeReg c s i v with
    | .ok s' => k.run c s'
    | .error r => .refused r
  | .memRead a k, s =>
    match Machine.memRead c s a with
    | .ok v => (k v).run c s
    | .error f => .fault f
  | .memReadPair a k, s =>
    match Machine.memReadPair c s a with
    | .ok v => (k v).run c s
    | .error f => .fault f
  | .memWrite a v k, s =>
    match Machine.memWrite c s a v with
    | .ok s' => k.run c s'
    | .error f => .fault f
  | .push v k, s =>
    match Machine.push c s v with
    | .ok s' => k.run c s'
    | .error f => .fault f
  | .pop k, s =>
    match Machine.pop s with
    | .ok (v, s') => (k v).run c s'
    | .error f => .fault f
  | .top k, s => (k (Machine.top s)).run c s
  | .inspect k, s => (k (Machine.inspect s)).run c s
  | .readPc k, s => (k s.pc).run c s
  | .jump t k, s => k.run c (Machine.jump s t)
  | .hop d k, s => k.run c (Machine.hop s d)

/-- The last two phases of a STEP, for the instruction word `w` whose behaviour is `b`, from the state
`s` the step began in: the advance, then the behaviour, then `RS <- RUNNING` (R181, R182). A raise takes
the fault in `s`, so that every write of the step and the advance are undone (R165, R183). -/
def executePhase (c : Config) (w : Word) (b : Behaviour) (s : State) :
    Host.Outcome State Fault Refusal :=
  match b.run c (advance s) with
  | .next t => .next t.complete
  | .fault f => .next (takeFault s f (some w))
  | .refused r => .refused r

end Sys2Proof.Machine
end

