-- ==== Sys2Proof/Machine/Arithmetic.lean ====
section
/-! DEFINITION. The arithmetic instruction of RC6 (44_reference_catalog.md R226): ADD. -/

namespace Sys2Proof.Machine

/-- ADD VX, VY (R226): both reads first, then `x[X] <- r`, then `FLAG <- 1` on OVERFLOW, `0` on OK. -/
def addBehaviour (c : Config) (x y : Nat) : Behaviour :=
  .readReg (registerOperand x) fun vx =>
    .readReg (registerOperand y) fun vy =>
      .writeReg (registerOperand x) (addWrap vx.toNat vy.toNat 8).1
        (.writeReg (flagIndex c) (addWrap vx.toNat vy.toNat 8).2.toInt .done)

/-- The meaning of ADD in the unit. -/
def execAdd (x y : Nat) (s : State) : Host.Outcome State Fault Refusal :=
  executePhase Config.unit (encode (.add x y)) (addBehaviour Config.unit x y) s

end Sys2Proof.Machine
end

