-- ==== Sys2Proof/Machine/ControlFlow.lean ====
section
/-! DEFINITION. The instructions of RC6 that move the pc (44_reference_catalog.md R221 to R225): NOP,
RET, JP, CALL, SE. For each, its behaviour over any parameters, and its meaning in the unit: the advance
and the behaviour, from the state the step began in. The word a fault records is the instruction's own
encoding (log 7). -/

namespace Sys2Proof.Machine

/-- NOP (R221): nothing. -/
def nopBehaviour : Behaviour := .done

/-- RET (R222): `t <- pop(); jump(t - LINK_BIAS)`. -/
def retBehaviour (c : Config) : Behaviour := .pop fun t => .jump (t - c.linkBias) .done

/-- JP nnn (R223): `jump(nnn)`. -/
def jpBehaviour (nnn : Nat) : Behaviour := .jump (addressOperand nnn) .done

/-- CALL nnn (R224): `push(pc + LINK_BIAS); jump(nnn)`. -/
def callBehaviour (c : Config) (nnn : Nat) : Behaviour :=
  .readPc fun pc => .push (pc + c.linkBias) (.jump (addressOperand nnn) .done)

/-- SE VX, kk (R225): `if x[X] = kk then hop(1)`. -/
def seBehaviour (x kk : Nat) : Behaviour :=
  .readReg (registerOperand x) fun v =>
    if (v.toNat : Int) = constantOperand kk then .hop 1 .done else .done

/-- The meaning of NOP in the unit. -/
def execNop (s : State) : Host.Outcome State Fault Refusal :=
  executePhase Config.unit (encode .nop) nopBehaviour s

/-- The meaning of RET in the unit. -/
def execRet (s : State) : Host.Outcome State Fault Refusal :=
  executePhase Config.unit (encode .ret) (retBehaviour Config.unit) s

/-- The meaning of JP in the unit. -/
def execJp (nnn : Nat) (s : State) : Host.Outcome State Fault Refusal :=
  executePhase Config.unit (encode (.jp nnn)) (jpBehaviour nnn) s

/-- The meaning of CALL in the unit. -/
def execCall (nnn : Nat) (s : State) : Host.Outcome State Fault Refusal :=
  executePhase Config.unit (encode (.call nnn)) (callBehaviour Config.unit nnn) s

/-- The meaning of SE in the unit. -/
def execSe (x kk : Nat) (s : State) : Host.Outcome State Fault Refusal :=
  executePhase Config.unit (encode (.se x kk)) (seBehaviour x kk) s

end Sys2Proof.Machine
end

