-- ==== Sys2Proof/Machine/Dispatch.lean ====
section
/-! DEFINITION. One arm per instruction of RC6: the advance and execute phases of a STEP whose fetch and
dispatch gave that instruction. -/

namespace Sys2Proof.Machine

/-- The meaning of every instruction, from the state its step began in (pc at the instruction). -/
def exec (i : Instr) (s : State) : Host.Outcome State Fault Refusal :=
  match i with
  | .nop => Sys2Proof.Machine.execNop s
  | .ret => Sys2Proof.Machine.execRet s
  | .jp nnn => Sys2Proof.Machine.execJp nnn s
  | .call nnn => Sys2Proof.Machine.execCall nnn s
  | .se x kk => Sys2Proof.Machine.execSe x kk s
  | .add x y => Sys2Proof.Machine.execAdd x y s

end Sys2Proof.Machine
end

