-- ==== Sys2Proof/Machine/Sequencer.lean ====
section
/-! DEFINITION. The step sequencer (43_step_and_host_commands.md R181 to R184): the run states, the fetch
phase, the dispatch phase; and how an instruction is put where the next step fetches. -/

namespace Sys2Proof.Machine

/-- The precondition and the fetch phase of a STEP (R181, R184): refused in LOADED; nothing in FAULTED;
else the word at the pc goes to `rest`, or the fetch's own fault is taken, with no word recorded. -/
def sequence (c : Config) (s : State) (rest : Word → Host.Outcome State Fault Refusal) :
    Host.Outcome State Fault Refusal :=
  match s.rs with
  | .loaded => .refused .stepInLoaded
  | .faulted => .next s
  | .unloaded | .ready | .running | .halted =>
    match fetch c s s.pc with
    | .error f => .next (takeFault s f none)
    | .ok w => rest w

/-- The dispatch phase of a STEP: what the word selects goes to `rest`, or the decode fault is taken,
before any advance (R182, R183). -/
def dispatchPhase {α : Type} (s : State) (w : Word) (selected : Except DecodeError α)
    (rest : α → Host.Outcome State Fault Refusal) : Host.Outcome State Fault Refusal :=
  match selected with
  | .error e => .next (takeFault s (Fault.ofDecode e) (some w))
  | .ok a => rest a

/-- Where `placeWord` puts an instruction: at the pc; at `ENTRY` when the pc has no two bytes of memory
under it (log 13). -/
def placeAddress (c : Config) (s : State) : Int :=
  if 0 ≤ s.pc ∧ s.pc + 1 ≤ (c.memSize : Int) - 1 then s.pc else c.entry

/-- The state in which the next STEP fetches the word `w`: its two bytes in memory at the pc, a program
that reaches over them loaded (of one byte at least, R197), and a run state that a STEP runs in. It stands for the host's LOAD and
RESET of a program that holds the word there (log 13). -/
def placeWord (c : Config) (s : State) (w : Word) : State :=
  let a := placeAddress c s
  { s with
    pc := a
    mem := (s.mem.write a.toNat (firstByte w)).write (a.toNat + 1) (secondByte w)
    loaded := true
    plen := max (max s.plen 1) (a.toNat + 2 - c.loadOffset)
    rs := if s.rs = .running ∨ s.rs = .halted then s.rs else .ready
    fr := none }

end Sys2Proof.Machine
end

