-- ==== Sys2Proof/Machine/Step.lean ====
section
/-! DEFINITION. STEP (43_step_and_host_commands.md R181): fetch, dispatch, then advance and execute. -/

namespace Sys2Proof.Machine

/-- One STEP of the unit. -/
def step (s : State) : Host.Outcome State Fault Refusal :=
  sequence Config.unit s fun w => dispatchPhase s w (decode w) fun i => exec i s

/-- The state with the instruction of a row of spec/opcode_table.json where `step` fetches next. -/
def State.withFetchWord (s : State) (nbits w : Nat) : State :=
  placeWord Config.unit s (tableWord nbits w)

end Sys2Proof.Machine
end

