-- ==== Sys2Proof/Machine/Catalog.lean ====
section
/-! DEFINITION. Validation of a catalog (30_encoding.md R83, 41_decode_dispatch.md R137, R138, R142),
done once, when a unit is constructed. -/

namespace Sys2Proof.Machine

/-- An Op is well formed: at most three operands, disjoint operand masks, no pattern bit inside an
operand mask (R83 (a), (b), (c)). R83 asks nothing of the tags, so an operand tagged `none` with a mask
other than 0 is accepted (DESIGN CHOICE, log 25). -/
def opWellFormed {β : Type} (op : Op β) : Bool :=
  decide (op.operands.length ≤ maxOperands) &&
  decide (op.operands.Pairwise fun o p => o.mask &&& p.mask = 0) &&
  decide (op.pattern &&& ~~~op.fixed = 0)

/-- Two Ops overlap: their patterns agree on every bit that both fix (R137). -/
def opsOverlap {β : Type} (a b : Op β) : Bool :=
  decide ((a.pattern ^^^ b.pattern) &&& a.fixed &&& b.fixed = 0)

/-- The largest value an operand of a mask can extract: `mask >> ctz(mask)` (R130, R142). -/
def largestOperand (mask : Word) : Nat := (mask >>> ctz mask).toNat

/-- The register-range condition: every operand tagged `register` can extract only indexes of registers
that exist (R142). -/
def registersInRange {β : Type} (c : Config) (op : Op β) : Bool :=
  op.operands.all fun o =>
    decide (o.tag = .register → (largestOperand o.mask : Int) ≤ (c.nreg : Int) - 1)

/-- A catalog is valid: every Op well formed, no two at different positions overlapping, every register
field in range (R138). -/
def validCatalog {β : Type} (c : Config) (catalog : List (Op β)) : Bool :=
  catalog.all opWellFormed &&
  decide (catalog.Pairwise fun a b => opsOverlap a b = false) &&
  catalog.all (registersInRange c)

end Sys2Proof.Machine
end

