-- ==== Sys2Proof/Machine/Engine.lean ====
section
/-! DEFINITION. The unit as the spec defines it, for EVERY value of its parameters and EVERY catalog
(00_scope.md R1, R8; 42_context_primitives.md R164): construction and the table-driven STEP. Step.lean's
`step` is this engine with RC6 in the open unit; that the two agree is an obligation. -/

namespace Sys2Proof.Machine

/-- What a unit is constructed with: its parameters and its catalog (R7 to R10). -/
structure Engine where
  config : Config
  catalog : List (Op Behaviour)

/-- Whether construction succeeds (R138, and R7's constraint). -/
def Engine.valid (e : Engine) : Bool := e.config.valid && validCatalog e.config e.catalog

/-- Construction (R280): the power-on state, or no unit at all (R139). -/
def Engine.construct (e : Engine) : Host.Outcome State Fault Refusal :=
  if e.valid then .next (State.constructed e.config) else .refused .invalidCatalog

/-- STEP of a table-driven engine (R181): fetch, dispatch over the catalog, operand extraction, advance,
execute. -/
def Engine.step (e : Engine) (s : State) : Host.Outcome State Fault Refusal :=
  sequence e.config s fun w =>
    dispatchPhase s w (dispatch e.catalog w) fun op =>
      executePhase e.config w (op.execute (decodeOperands op w)) s

/-- The behaviour of an instruction of RC6, over any parameters (R221 to R226). -/
def behaviourOf (c : Config) : Instr → Behaviour
  | .nop => nopBehaviour
  | .ret => retBehaviour c
  | .jp nnn => jpBehaviour nnn
  | .call nnn => callBehaviour c nnn
  | .se x kk => seBehaviour x kk
  | .add x y => addBehaviour c x y

/-- RC6 as a catalog of behaviours (R220): the rows of the decoder's table. A row never gets a number of
operands that is not its own. -/
def rc6Catalog (c : Config) : List (Op Behaviour) :=
  rc6.map (Op.map fun selected =>
    match selected with
    | some i => behaviourOf c i
    | none => .done)

/-- The engine with RC6, over any parameters. -/
def Engine.rc6 (c : Config) : Engine := ⟨c, rc6Catalog c⟩

end Sys2Proof.Machine
end

