-- ==== Sys2Proof/Machine/Commands.lean ====
section
/-! DEFINITION. The host commands (43_step_and_host_commands.md R180 to R197), each one indivisible event
between steps, for every engine. -/

namespace Sys2Proof.Machine

/-- What the loader hands the unit: a byte sequence, or the signal that no loader knows the source kind
(R186, 00_scope.md R3). -/
inductive Source where
  | image (bytes : List Byte)
  | noLoader
deriving DecidableEq, Repr

/-- A snapshot (R191). Its register and memory values are integers, since a host can build one by hand
that holds a value no byte has (R192, U5). -/
structure Snapshot where
  id : String
  version : Int
  regs : List Int
  mem : List Int
  stack : List Int
  pc : Int
deriving DecidableEq, Repr

/-- The commands (R180). RUN carries the number of steps the host lets it take before it accepts the
next command: any natural number, zero included (R188, log 14). -/
inductive Command where
  | load (source : Source)
  | reset
  | step
  | run (steps : Nat)
  | stop
  | snapshot
  | restore (s : Snapshot)
  | top
  | inspect
deriving DecidableEq, Repr

/-- The two command failures (60_exceptions.md R240, R247, R248). -/
inductive CommandFailure where
  | loaderError
  | snapshotMismatch
deriving DecidableEq, Repr

/-- The code of a command failure (R241). -/
def CommandFailure.code : CommandFailure → Nat
  | .loaderError => 6
  | .snapshotMismatch => 7

/-- What the host is told. -/
inductive Reply where
  | done
  /-- A STEP or RUN ended in this fault, or found it latched (R183, R184, R188). -/
  | fault (record : FaultRecord)
  | failed (failure : CommandFailure)
  | snapshot (s : Snapshot)
  | top (entry : Option Int)
  | stack (entries : List Int)
deriving DecidableEq, Repr

/-! ## LOAD -/

/-- The effect of a LOAD that succeeds (R185): all of memory replaced, registers, stack and pc left. -/
def loadImage (c : Config) (img : List Byte) (s : State) : State :=
  { s with
    mem := Memory.install [] c.loadOffset img
    plen := img.length
    loaded := true
    fr := none
    rs := .loaded }

/-- LOAD (R185, R186, R197). -/
def loadCommand (c : Config) (source : Source) (s : State) :
    Host.Outcome (State × Reply) Fault Refusal :=
  match source with
  | .noLoader => .next (s, .failed .loaderError)
  | .image img =>
    if c.loadOffset + img.length ≤ c.memSize then .next (loadImage c img s, .done)
    else .refused (.imageTooLarge img.length)

/-! ## RESET and STOP -/

/-- The effect of a RESET (R187). -/
def resetUnit (c : Config) (s : State) : State :=
  clearFault { s with
    regs := List.replicate c.nreg 0
    stack := []
    pc := c.entry
    mem := s.mem.keepWindow c.loadOffset s.plen }

/-- The effect of a STOP (R189). -/
def stopUnit (s : State) : State := { s with rs := if s.rs = .running then .halted else s.rs }

/-! ## SNAPSHOT and RESTORE -/

/-- The record a SNAPSHOT returns (R190, R191). -/
def takeSnapshot (c : Config) (s : State) : Snapshot where
  id := c.archId
  version := c.snapVersion
  regs := s.regs.map fun v => (v.toNat : Int)
  mem := (List.range c.memSize).map fun a => ((s.mem.read a).toNat : Int)
  stack := s.stack
  pc := s.pc

/-- Whether an integer is a value a register or memory cell can hold. -/
def isByte (v : Int) : Bool := decide (0 ≤ v) && decide (v ≤ 255)

/-- The shape a matching snapshot must have (R192). -/
def Snapshot.wellShaped (c : Config) (snap : Snapshot) : Bool :=
  decide (snap.regs.length = c.nreg) && decide (snap.mem.length = c.memSize) &&
  decide (snap.stack.length ≤ c.stackDepth) && snap.regs.all isByte && snap.mem.all isByte

/-- The effect of a RESTORE that succeeds (R192). -/
def restoreState (snap : Snapshot) (s : State) : State :=
  clearFault { s with
    regs := snap.regs.map byteOfInt
    mem := Memory.install [] 0 (snap.mem.map byteOfInt)
    stack := snap.stack
    pc := snap.pc }

/-- RESTORE (R192): the tags first, then the shape. -/
def restoreCommand (c : Config) (snap : Snapshot) (s : State) :
    Host.Outcome (State × Reply) Fault Refusal :=
  if snap.id ≠ c.archId ∨ snap.version ≠ c.snapVersion then .next (s, .failed .snapshotMismatch)
  else if snap.wellShaped c then .next (restoreState snap s, .done)
  else .refused .malformedSnapshot

/-! ## STEP and RUN -/

/-- What STEP and RUN report of the state they leave: the latched fault, if there is one (R183, R184). -/
def stepReply (s : State) : Reply :=
  match s.fr with
  | some record => .fault record
  | none => .done

/-- An outcome of stepping, with its report to the host. -/
def reported (o : Host.Outcome State Fault Refusal) : Host.Outcome (State × Reply) Fault Refusal :=
  match o with
  | .next t => .next (t, stepReply t)
  | .fault f => .fault f
  | .refused r => .refused r

/-- STEP after STEP, `n` of them unless one raises a fault (R188). -/
def Engine.steps (e : Engine) : Nat → State → Host.Outcome State Fault Refusal
  | 0, s => .next s
  | n + 1, s =>
    match e.step s with
    | .next t => if t.rs = .faulted then .next t else e.steps n t
    | .fault f => .fault f
    | .refused r => .refused r

/-- RUN (R188): the precondition of STEP, then the steps the host lets it take. -/
def Engine.run (e : Engine) (n : Nat) (s : State) : Host.Outcome State Fault Refusal :=
  if s.rs = .loaded then .refused .stepInLoaded else e.steps n s

/-! ## Every command -/

/-- One host command given to a unit in state `s` (R180). -/
def Engine.command (e : Engine) (cmd : Command) (s : State) :
    Host.Outcome (State × Reply) Fault Refusal :=
  match cmd with
  | .load source => loadCommand e.config source s
  | .reset => .next (resetUnit e.config s, .done)
  | .step => reported (e.step s)
  | .run n => reported (e.run n s)
  | .stop => .next (stopUnit s, .done)
  | .snapshot => .next (s, .snapshot (takeSnapshot e.config s))
  | .restore snap => restoreCommand e.config snap s
  | .top => .next (s, .top (top s))
  | .inspect => .next (s, .stack (inspect s))

end Sys2Proof.Machine
end

