-- ==== Sys2Proof/Safety.lean ====
section
/-! DEFINITION. What the states a unit can reach have in common (10_state.md R31), and what is no good
end of a run. -/

namespace Sys2Proof.Machine

/-- The invariants of R31, with the canonical form of the memory and what the run states mean (R26). -/
structure State.Inv (c : Config) (s : State) : Prop where
  /-- One byte a register; that it lies in 0 to 255 is its type (R20, R31 (a)). -/
  regs_length : s.regs.length = c.nreg
  /-- The memory is in canonical form. -/
  mem_wf : s.mem.wf = true
  /-- The memory has no byte at or beyond `MEM_SIZE` (R23). -/
  mem_below : s.mem.below c.memSize = true
  /-- R31 (c). -/
  stack_length : s.stack.length ≤ c.stackDepth
  /-- R31 (d). -/
  plen_zero : s.loaded = false → s.plen = 0
  /-- The loaded image fits in memory (R53, R185). -/
  image_fits : s.loaded = true → c.loadOffset + s.plen ≤ c.memSize
  /-- R31 (e). -/
  fr_none_iff : s.fr = none ↔ s.rs ≠ .faulted
  /-- R31 (f). -/
  unloaded_imp : s.rs = .unloaded → s.loaded = false
  /-- Every other run state but FAULTED has a program (R26, R194). -/
  loaded_imp : s.rs = .loaded ∨ s.rs = .ready ∨ s.rs = .running ∨ s.rs = .halted → s.loaded = true
  /-- A latched fault is at the pc (R183, R251). -/
  fpc_eq : ∀ r, s.fr = some r → r.fpc = s.pc

/-- The bound of R228 on the pc and, as its proof needs, on the entries of the call stack. -/
structure State.PcBounded (c : Config) (s : State) : Prop where
  pc_nonneg : 0 ≤ s.pc
  pc_le : s.pc ≤ c.memSize + 2
  entries : ∀ v ∈ s.stack, 2 ≤ v ∧ v ≤ (c.memSize : Int)

/-- The precondition of STEP: the run states in which R181 defines it. -/
def State.steppable (s : State) : Prop :=
  s.rs = .unloaded ∨ s.rs = .ready ∨ s.rs = .running ∨ s.rs = .halted

/-- What a program can read or write of the unit: `x`, `pc`, `M`, `stack` (R150). Two states that agree
on it may differ in `loaded`, `PLEN`, `RS` and `FR`. -/
def State.sameContext (s t : State) : Prop :=
  s.regs = t.regs ∧ s.pc = t.pc ∧ s.mem = t.mem ∧ s.stack = t.stack

/-- What the host's commands and the sequencer alone write: `loaded`, `PLEN`, `RS`, `FR` (R32). -/
def State.sameControl (s t : State) : Prop :=
  s.loaded = t.loaded ∧ s.plen = t.plen ∧ s.rs = t.rs ∧ s.fr = t.fr

/-- FAULTED is never a good end of a run (60_exceptions.md R252). -/
def State.goodEnd (s : State) : Bool := decide (s.rs ≠ .faulted)

end Sys2Proof.Machine
end

