-- ==== Sys2Proof/Certificates/Slice0/Obligations.lean ====
section
/-! DEFINITION. The statements for the provers. Each docstring names the rule of spec/ it formalises, or
the entry of notes/assumptions/ it rests on. Where a statement quantifies over `c : Config` or
`e : Engine` it holds for every value of the unit's parameters, both values of FETCH_BOUND included. -/

open Sys2Proof Sys2Proof.Machine

/-! ## Encoding and decoding -/

/-- 95_test_vectors.md section 2.3: the words of M1 to M16 and of the document's scenarios, each decoded
as its row of R86 says. -/
def Obligations.SpecWordsDecodeAsListed : Prop :=
  decode 0x0000 = .ok .nop ∧ decode 0x00ee = .ok .ret ∧
  decode 0x1204 = .ok (.jp 0x204) ∧ decode 0x1fff = .ok (.jp 0xfff) ∧
  decode 0x2204 = .ok (.call 0x204) ∧
  decode 0x30aa = .ok (.se 0 0xaa) ∧ decode 0x3a10 = .ok (.se 0xa 0x10) ∧
  decode 0x8ab4 = .ok (.add 0xa 0xb) ∧ decode 0x8ff4 = .ok (.add 0xf 0xf) ∧
  decode 0x00e0 = .error (.unknownOpcode 0x00e0) ∧ decode 0x8010 = .error (.unknownOpcode 0x8010) ∧
  decode 0xffff = .error (.unknownOpcode 0xffff)

/-- R85, R86, R89: every instruction whose operands fit its fields is what its own word decodes to; no
bit of an encoding is dropped. -/
def Obligations.DecodeOfEncodeIsTheInstruction : Prop :=
  ∀ i : Instr, i.wf = true → decode (encode i) = .ok i

/-- R85, R86, R89: a word that decodes is the encoding of what it decodes to, which is well formed; so
one instruction has one word, and the word a fault records is the fetched one (log 7). -/
def Obligations.EncodeOfDecodeIsTheWord : Prop :=
  ∀ (w : Word) (i : Instr), decode w = .ok i → i.wf = true ∧ encode i = w

/-- R87 as to RC6: the words that raise UnknownOpcode are exactly those outside the listed ranges, and
no word raises AmbiguousOpcode. -/
def Obligations.IllegalWordsAreExactlyThoseListed : Prop :=
  ∀ w : Word,
    (decode w = .error (.unknownOpcode w) ↔
      ¬ (w.toNat = 0 ∨ w.toNat = 0xee ∨ (0x1000 ≤ w.toNat ∧ w.toNat ≤ 0x3fff) ∨
        (0x8000 ≤ w.toNat ∧ w.toNat ≤ 0x8fff ∧ w.toNat % 16 = 4))) ∧
    ∀ v, decode w ≠ .error (.ambiguousOpcode v)

/-- R141: a decoder by the digits of the word gives the same answer as the scan of the catalog, for every
word. -/
def Obligations.DigitDecoderAgreesWithTheScan : Prop :=
  ∀ w : Word, decodeByDigits w = decode w

/-- R130: an operand mask that is one run of `len` bits from bit `lo` on extracts exactly those bits,
right-aligned; and no mask extracts more than `mask >> ctz(mask)`. -/
def Obligations.ExtractGivesTheFieldRightAligned : Prop :=
  (∀ (w : Word) (lo len : Nat), 0 < len → lo + len ≤ 16 →
    extract w (BitVec.ofNat 16 ((2 ^ len - 1) * 2 ^ lo)) = w.toNat / 2 ^ lo % 2 ^ len) ∧
  ∀ w mask : Word, extract w mask ≤ (mask >>> ctz mask).toNat

/-- R131, R12, as log 18 reads them: for every word and every mask, with gaps or without, bit `i` of what
is extracted is bit `i + ctz(mask)` of `word & mask`, so that the mask's gaps stay; `ctz` of a mask that
is not 0 is the place of its lowest set bit; and a zero mask extracts 0. With the vectors E19 and E20. -/
def Obligations.ZeroAndGappedMasksAreAppliedAsWritten : Prop :=
  (∀ w : Word, extract w 0 = 0) ∧
  (∀ (w mask : Word) (i : Nat),
    (extract w mask).testBit i = (w.getLsbD (i + ctz mask) && mask.getLsbD (i + ctz mask))) ∧
  (∀ mask : Word, mask ≠ 0 →
    mask.getLsbD (ctz mask) = true ∧ ∀ j < ctz mask, mask.getLsbD j = false) ∧
  extract 0xabcd 0x0f0f = 0x0b0d ∧ extract 0xabcd 0x0a00 = 0x5

/-! ## Dispatch and validation -/

/-- R135: one matching Op is returned, none is UnknownOpcode, more than one is AmbiguousOpcode, both with
the raw word; and the order of the catalog never changes the outcome. -/
def Obligations.DispatchFindsTheOneMatchingOp : Prop :=
  ∀ (β : Type) (catalog : List (Op β)) (w : Word),
    (∀ op, dispatch catalog w = .ok op ↔ catalog.filter (fun o => o.matchesWord w) = [op]) ∧
    (dispatch catalog w = .error (.unknownOpcode w) ↔ ∀ op ∈ catalog, op.matchesWord w = false) ∧
    (dispatch catalog w = .error (.ambiguousOpcode w) ↔
      2 ≤ (catalog.filter fun o => o.matchesWord w).length) ∧
    ∀ reordered : List (Op β), catalog.Perm reordered → dispatch reordered w = dispatch catalog w

/-- R137: two well-formed Ops overlap exactly when some word matches both. -/
def Obligations.OverlapExactlyWhenAWordMatchesBoth : Prop :=
  ∀ (β : Type) (a b : Op β), opWellFormed a = true → opWellFormed b = true →
    (opsOverlap a b = true ↔ ∃ w, a.matchesWord w = true ∧ b.matchesWord w = true)

/-- R140: dispatch over a valid catalog never raises AmbiguousOpcode. -/
def Obligations.ValidCatalogIsNeverAmbiguous : Prop :=
  ∀ (β : Type) (c : Config) (catalog : List (Op β)), validCatalog c catalog = true →
    ∀ w v : Word, dispatch catalog w ≠ .error (.ambiguousOpcode v)

/-- R227 and R142: RC6 is a valid catalog for a unit exactly when it has at least the sixteen registers
its fields can name. -/
def Obligations.ReferenceCatalogIsValidWithSixteenRegisters : Prop :=
  ∀ c : Config, validCatalog c (rc6Catalog c) = true ↔ 16 ≤ c.nreg

/-- R30: construction gives the power-on state, every field as R30 lists it. R139, R7, R280: it is
refused for a catalog or parameters that fail validation; that it is refused under the name
`invalidCatalog`, and for `NREG = 0` too, is the model's reading (DEDUCED, log 20). -/
def Obligations.ConstructionGivesThePowerOnState : Prop :=
  ∀ e : Engine,
    (e.valid = false → e.construct = .refused .invalidCatalog) ∧
    (e.valid = true → ∃ s, e.construct = .next s ∧
      s.regs.length = e.config.nreg ∧ (∀ i < e.config.nreg, s.regs[i]? = some 0) ∧
      s.pc = e.config.entry ∧ (∀ a, s.mem.read a = 0) ∧ s.stack = [] ∧
      s.loaded = false ∧ s.plen = 0 ∧ s.rs = .unloaded ∧ s.fr = none ∧ s.Inv e.config)

/-! ## The arithmetic block -/

/-- R111: `cast` is the floored modulus: in range, congruent, the identity on values in range, the low
bits of the two's complement, idempotent, with R111's corner cases. -/
def Obligations.CastIsTheFlooredModulus : Prop :=
  ∀ (n : Int) (w : Nat),
    0 ≤ castTo n w ∧ castTo n w < 2 ^ w ∧ (∃ q : Int, n - castTo n w = q * 2 ^ w) ∧
    (0 ≤ n → n < 2 ^ w → castTo n w = n) ∧
    castTo n w = ((BitVec.ofInt w n).toNat : Int) ∧
    castTo (castTo n w) w = castTo n w ∧
    castTo (2 ^ w) w = 0 ∧ castTo (-1) w = 2 ^ w - 1 ∧ castTo (-(2 ^ w)) w = 0

/-- R113, R114, R115: `wrap`, `add` and `sub` give the cast of the true result, with OVERFLOW exactly when
the true result lies outside `[0, 2^w)`. -/
def Obligations.OverflowExactlyWhenTheTrueResultIsOutOfRange : Prop :=
  ∀ (a b n : Int) (w : Nat),
    ((wrap n w).1 = castTo n w ∧ ((wrap n w).2 = .overflow ↔ n < 0 ∨ 2 ^ w ≤ n)) ∧
    ((addWrap a b w).1 = castTo (a + b) w ∧
      ((addWrap a b w).2 = .overflow ↔ a + b < 0 ∨ 2 ^ w ≤ a + b)) ∧
    ((subWrap a b w).1 = castTo (a - b) w ∧
      ((subWrap a b w).2 = .overflow ↔ a - b < 0 ∨ 2 ^ w ≤ a - b))

/-- R117: on operands in range the flag of `add` is the carry out of the top bit and the flag of `sub` the
borrow, and neither is a signed overflow. -/
def Obligations.FlagIsTheUnsignedCarryOrBorrow : Prop :=
  (∀ (w : Nat) (a b : BitVec w),
    (addWrap a.toNat b.toNat w).1 = ((a + b).toNat : Int) ∧
    ((addWrap a.toNat b.toNat w).2 = .overflow ↔ BitVec.carry w a b false = true) ∧
    ((addWrap a.toNat b.toNat w).2 = .overflow ↔ 2 ^ w ≤ a.toNat + b.toNat) ∧
    (subWrap a.toNat b.toNat w).1 = ((a - b).toNat : Int) ∧
    ((subWrap a.toNat b.toNat w).2 = .overflow ↔ a.toNat < b.toNat) ∧
    (0 : Int) ≤ a.toNat + b.toNat ∧ (a.toNat : Int) - b.toNat < 2 ^ w) ∧
  addWrap 0x7f 0x01 8 = (0x80, .ok)

/-! ## The context's primitives -/

/-- R152, R151, R153: a register write leaves `cast(v, 8)` in that register and changes nothing else; an
index outside the file is refused by both ports. -/
def Obligations.RegisterWriteThenRead : Prop :=
  ∀ (c : Config) (s : State) (i v : Int), s.regs.length = c.nreg →
    (0 ≤ i → i ≤ (c.nreg : Int) - 1 → ∃ t b,
      writeReg c s i v = .ok t ∧ readReg c t i = .ok b ∧ (b.toNat : Int) = castTo v 8 ∧
      (∀ j, j ≠ i → readReg c t j = readReg c s j) ∧
      t.regs.length = s.regs.length ∧ t = { s with regs := t.regs }) ∧
    ((i < 0 ∨ (c.nreg : Int) - 1 < i) →
      writeReg c s i v = .error (.registerOutOfRange i) ∧ readReg c s i = .error (.registerOutOfRange i))

/-- R56, R55: a memory write inside the memory leaves `cast(v, 8)` at that address, every other address
as it was and the memory in canonical form; outside it raises BoundsError of the address. -/
def Obligations.MemoryWriteThenRead : Prop :=
  ∀ (c : Config) (s : State) (a v : Int), s.mem.wf = true → s.mem.below c.memSize = true →
    (0 ≤ a → a ≤ (c.memSize : Int) - 1 → ∃ t b,
      memWrite c s a v = .ok t ∧ memRead c t a = .ok b ∧ (b.toNat : Int) = castTo v 8 ∧
      (∀ a', a' ≠ a → memRead c t a' = memRead c s a') ∧
      t.mem.wf = true ∧ t.mem.below c.memSize = true ∧ t = { s with mem := t.mem }) ∧
    ((a < 0 ∨ (c.memSize : Int) - 1 < a) → memWrite c s a v = .error (.boundsError a))

/-- R55: a data read inside the memory gives the byte there and outside it raises BoundsError of the
address; the pair read is big-endian and faults at the first of its bytes that lies outside. -/
def Obligations.DataReadsAreBoundedAndBigEndian : Prop :=
  ∀ (c : Config) (s : State) (a : Int),
    (0 ≤ a → a ≤ (c.memSize : Int) - 1 → memRead c s a = .ok (s.mem.read a.toNat)) ∧
    ((a < 0 ∨ (c.memSize : Int) - 1 < a) →
      memRead c s a = .error (.boundsError a) ∧ memReadPair c s a = .error (.boundsError a)) ∧
    (0 ≤ a → a + 1 ≤ (c.memSize : Int) - 1 → ∃ w, memReadPair c s a = .ok w ∧
      w.toNat = (s.mem.read a.toNat).toNat * 256 + (s.mem.read (a.toNat + 1)).toNat) ∧
    (0 ≤ a → a = (c.memSize : Int) - 1 → memReadPair c s a = .error (.boundsError (a + 1)))

/-- R53, R52, R54, R197: a fetch raises BoundsError of its address with no program loaded, at a negative
address, with `a + 1` beyond FETCH_LAST, or, under IMAGE, with an image of length 0; and else gives the
big-endian word there, whatever the address's parity. In one corner two rules of the spec differ, and
that the model follows R197 there and not R53's formula is its own reading (DEDUCED, log 26): with an
image of length 0 under IMAGE, a fetch with `a + 1` at most `LOAD_OFFSET - 1` faults. -/
def Obligations.FetchReadsTheBigEndianWordWithinItsBounds : Prop :=
  ∀ (c : Config) (s : State) (a last : Int),
    ((c.fetchBound = .image ∧ last = c.loadOffset + s.plen - 1) ∨
      (c.fetchBound = .memory ∧ last = c.memSize - 1)) →
    ((s.loaded = false ∨ a < 0 ∨ last < a + 1 ∨ (c.fetchBound = .image ∧ s.plen = 0)) →
      fetch c s a = .error (.boundsError a)) ∧
    (s.loaded = true → 0 ≤ a → a + 1 ≤ last → (c.fetchBound = .image → s.plen ≠ 0) →
      ∃ w, fetch c s a = .ok w ∧
        w.toNat = (s.mem.read a.toNat).toNat * 256 + (s.mem.read (a.toNat + 1)).toNat)

/-- R60, R63: a fetch after a store sees the stored byte, and the other byte as it was. -/
def Obligations.FetchSeesStores : Prop :=
  ∀ (c : Config) (s t : State) (a v f : Int) (w : Word), s.mem.wf = true →
    memWrite c s a v = .ok t → fetch c t f = .ok w →
    (w.toNat : Int) =
      (if f = a then castTo v 8 else ((s.mem.read f.toNat).toNat : Int)) * 256 +
      (if f + 1 = a then castTo v 8 else ((s.mem.read (f.toNat + 1)).toNat : Int))

/-- R155, R156, R157: `push` raises StackOverflow of its value at capacity and else appends; `pop` takes
the newest entry off, and raises StackUnderflow on an empty stack; `top` and `inspect` only read. -/
def Obligations.CallStackIsABoundedLifo : Prop :=
  ∀ (c : Config) (s : State) (v : Int),
    (s.stack.length = c.stackDepth → push c s v = .error (.stackOverflow v)) ∧
    (s.stack.length ≠ c.stackDepth → ∃ t, push c s v = .ok t ∧
      t = { s with stack := s.stack ++ [v] } ∧ top t = some v ∧ inspect t = s.stack ++ [v] ∧
      pop t = .ok (v, s)) ∧
    (∀ older x, s.stack = older ++ [x] → pop s = .ok (x, { s with stack := older })) ∧
    (s.stack = [] → pop s = .error .stackUnderflow ∧ top s = none)

/-- R160, R161, R162, R163: `jump`, `hop`, its two convenience forms and the advance set the pc over the
integers, without a check, and change nothing else. -/
def Obligations.PcPrimitivesMoveOnlyThePc : Prop :=
  ∀ (s : State) (t d : Int),
    jump s t = { s with pc := t } ∧ hop s d = { s with pc := s.pc + 2 * d } ∧
    hopForwards s d = hop s d ∧ hopBackwards s d = { s with pc := s.pc - 2 * d } ∧
    advance s = { s with pc := s.pc + 2 }

/-! ## What a behaviour can do -/

/-- R150, R32: whatever its primitives, a behaviour leaves `loaded`, `PLEN`, `RS` and `FR` as they were. -/
def Obligations.BehaviourCannotWriteControlState : Prop :=
  ∀ (c : Config) (b : Behaviour) (s t : State), b.run c s = .next t → t.sameControl s

/-- R150, R256: a behaviour cannot observe `loaded`, `PLEN`, `RS` or `FR`: from two states that agree on
what the context shows it does the same and ends the same way. -/
def Obligations.BehaviourCannotObserveControlState : Prop :=
  ∀ (c : Config) (b : Behaviour) (s t : State), s.sameContext t →
    (∀ s', b.run c s = .next s' → ∃ t', b.run c t = .next t' ∧ s'.sameContext t') ∧
    (∀ f, b.run c s = .fault f → b.run c t = .fault f) ∧
    (∀ r, b.run c s = .refused r → b.run c t = .refused r)

/-! ## The instructions of RC6 -/

/-- R221: NOP completes in every state and only advances the pc. -/
def Obligations.NopOnlyAdvances : Prop :=
  ∀ s : State, exec .nop s = .next { s with pc := s.pc + 2, rs := .running }

/-- R223: JP completes in every state, with the pc at its operand, unchecked. -/
def Obligations.JpSetsThePc : Prop :=
  ∀ (nnn : Nat) (s : State), exec (.jp nnn) s = .next { s with pc := nnn, rs := .running }

/-- R224, R245, in the unit (`LINK_BIAS = 0`, log 4): CALL on a stack with room completes, pushing the
address after it; on a full stack it takes StackOverflow, with the value not pushed. -/
def Obligations.CallPushesTheNextAddress : Prop :=
  ∀ (nnn : Nat) (s : State),
    (s.stack.length ≠ Config.unit.stackDepth →
      exec (.call nnn) s =
        .next { s with stack := s.stack ++ [s.pc + 2], pc := nnn, rs := .running }) ∧
    (s.stack.length = Config.unit.stackDepth →
      exec (.call nnn) s =
        .next { s with
          rs := .faulted
          fr := some ⟨.stackOverflow, s.pc, some (encode (.call nnn)), .value (s.pc + 2)⟩ })

/-- R222, R246, in the unit (`LINK_BIAS = 0`, log 4): RET on a stack with an entry completes, removing the
newest and jumping to it, unchecked; on an empty stack it takes StackUnderflow. -/
def Obligations.RetJumpsToTheNewestEntry : Prop :=
  ∀ (s : State),
    (∀ (older : List Int) (v : Int), s.stack = older ++ [v] →
      exec .ret s = .next { s with stack := older, pc := v, rs := .running }) ∧
    (s.stack = [] →
      exec .ret s =
        .next { s with
          rs := .faulted
          fr := some ⟨.stackUnderflow, s.pc, some 0x00ee, .nothing⟩ })

/-- R225: SE completes in every state; it adds 4 to the pc when the register, as an unsigned byte, equals
the constant and 2 when not. -/
def Obligations.SeSkipsExactlyWhenEqual : Prop :=
  ∀ (x kk : Nat) (s : State), x < 16 →
    ((s.regs.getD x 0).toNat = kk →
      exec (.se x kk) s = .next { s with pc := s.pc + 4, rs := .running }) ∧
    ((s.regs.getD x 0).toNat ≠ kk →
      exec (.se x kk) s = .next { s with pc := s.pc + 2, rs := .running })

/-- R226: ADD completes in every state; the sum modulo 256 goes to VX and then the carry, 1 when the true
sum is 256 or more and 0 when not, to the last register, which it overwrites when X is that register. -/
def Obligations.AddWritesTheSumThenTheCarry : Prop :=
  ∀ (x y : Nat) (s : State), x < 16 → y < 16 →
    exec (.add x y) s =
      .next { s with
        regs := (s.regs.set x (s.regs.getD x 0 + s.regs.getD y 0)).set 15
          (if 256 ≤ (s.regs.getD x 0).toNat + (s.regs.getD y 0).toNat then 1 else 0)
        pc := s.pc + 2
        rs := .running }

/-- R226 corner cases (a) to (d), read off the registers of a whole register file: FLAG is the carry of
the old values whatever X and Y are; VX is the sum unless it is FLAG; every other register is kept. -/
def Obligations.AddLeavesOtherRegisters : Prop :=
  ∀ (x y : Nat) (s : State), x < 16 → y < 16 → s.regs.length = 16 →
    ∃ t, exec (.add x y) s = .next t ∧ t.regs.length = 16 ∧
      (t.regs.getD 15 0).toNat = ((s.regs.getD x 0).toNat + (s.regs.getD y 0).toNat) / 256 ∧
      (x ≠ 15 → (t.regs.getD x 0).toNat =
        ((s.regs.getD x 0).toNat + (s.regs.getD y 0).toNat) % 256) ∧
      ∀ r, r ≠ x → r ≠ 15 → t.regs[r]? = s.regs[r]?

/-- R153, U1: SE and ADD with the index of a register the unit has not, which no word decodes to, are
refused by name; they never pick a register. -/
def Obligations.MissingRegisterIsRefused : Prop :=
  ∀ (x y kk : Nat) (s : State), 16 ≤ x →
    exec (.se x kk) s = .refused (.registerOutOfRange x) ∧
    exec (.add x y) s = .refused (.registerOutOfRange x) ∧
    (y < 16 → exec (.add y x) s = .refused (.registerOutOfRange x))

/-- The frames of R221 to R226, R230 (a) and R28: what each instruction leaves as it was whenever `exec`
gives a next state, a fault taken included. No instruction writes a byte of memory, `loaded` or `PLEN`;
only ADD writes a register, and then VX and FLAG only; only CALL and RET write the call stack; `FR` is
written only when a fault is taken. -/
def Obligations.InstructionFrames : Prop :=
  ∀ (i : Instr) (s t : State), exec i s = .next t →
    (∀ a, t.mem.read a = s.mem.read a) ∧ t.loaded = s.loaded ∧ t.plen = s.plen ∧
    (t.rs ≠ .faulted → t.fr = s.fr ∧ t.rs = .running) ∧
    (match i with
      | .nop | .jp _ | .se _ _ => t.regs = s.regs ∧ t.stack = s.stack
      | .call _ =>
        t.regs = s.regs ∧ (t.stack = s.stack ∨ t.stack = s.stack ++ [s.pc + 2])
      | .ret => t.regs = s.regs ∧ (t.stack = s.stack ∨ t.stack = s.stack.dropLast)
      | .add x _ => t.stack = s.stack ∧ ∀ r, r ≠ x → r ≠ 15 → t.regs[r]? = s.regs[r]?)

/-- R229, for every `LINK_BIAS`: when a CALL has completed, a RET that finds the stack the CALL left
resumes at the instruction after the CALL and leaves the stack as it was before the CALL. -/
def Obligations.ReturnUndoesItsCall : Prop :=
  ∀ (c : Config) (nnn : Nat) (s t u : State),
    executePhase c (encode (.call nnn)) (callBehaviour c nnn) s = .next t → t.rs = .running →
    u.stack = t.stack →
    executePhase c (encode .ret) (retBehaviour c) u =
      .next { u with pc := s.pc + 2, stack := s.stack, rs := .running }

/-! ## The step -/

/-- R181, R182: in a run state in which STEP is defined, when the word at the pc decodes to an
instruction, STEP is `exec` of it; `exec` makes the advance itself (log 8). -/
def Obligations.StepRunsTheDecodedInstruction : Prop :=
  ∀ (s : State) (w : Word) (i : Instr), s.steppable → fetch Config.unit s s.pc = .ok w →
    decode w = .ok i → step s = exec i s

/-- R183, R242, R244 (a): a STEP whose fetch faults latches BoundsError of the pc with no word; one whose
word is illegal latches UnknownOpcode with the word; everything else stays, the pc too. -/
def Obligations.StepLatchesFetchAndDecodeFaults : Prop :=
  ∀ s : State, s.steppable →
    (∀ f, fetch Config.unit s s.pc = .error f →
      step s = .next { s with
        rs := .faulted, fr := some ⟨.boundsError, s.pc, none, .address s.pc⟩ }) ∧
    (∀ w v, fetch Config.unit s s.pc = .ok w → decode w = .error (.unknownOpcode v) →
      step s = .next { s with
        rs := .faulted, fr := some ⟨.unknownOpcode, s.pc, some w, .word w⟩ })

/-- R242, R243: for any catalog, a fetched word that no Op matches, or more than one, latches its decode
fault with the word twice, and nothing else changes. -/
def Obligations.DecodeFaultsRecordTheRawWord : Prop :=
  ∀ (e : Engine) (s : State) (w : Word), s.steppable → fetch e.config s s.pc = .ok w →
    ((∀ op ∈ e.catalog, op.matchesWord w = false) →
      e.step s = .next { s with
        rs := .faulted, fr := some ⟨.unknownOpcode, s.pc, some w, .word w⟩ }) ∧
    (2 ≤ (e.catalog.filter fun op => op.matchesWord w).length →
      e.step s = .next { s with
        rs := .faulted, fr := some ⟨.ambiguousOpcode, s.pc, some w, .word w⟩ })

/-- R183, for every catalog: whatever phase of a STEP raises, the next state differs from the one the
STEP began in by RS = FAULTED and the record of that fault, with the word when one was fetched; the
advance and every write of the behaviour are undone. -/
def Obligations.RaisedFaultIsLatchedAndTheStepUndone : Prop :=
  ∀ (e : Engine) (s : State), s.steppable →
    (∀ f, fetch e.config s s.pc = .error f →
      e.step s = .next { s with rs := .faulted, fr := some ⟨f.kind, s.pc, none, f.info⟩ }) ∧
    (∀ w d, fetch e.config s s.pc = .ok w → dispatch e.catalog w = .error d →
      e.step s = .next { s with
        rs := .faulted
        fr := some ⟨(Fault.ofDecode d).kind, s.pc, some w, (Fault.ofDecode d).info⟩ }) ∧
    (∀ w op f, fetch e.config s s.pc = .ok w → dispatch e.catalog w = .ok op →
      (op.execute (decodeOperands op w)).run e.config { s with pc := s.pc + 2 } = .fault f →
      e.step s = .next { s with rs := .faulted, fr := some ⟨f.kind, s.pc, some w, f.info⟩ })

/-- R184: STEP is refused in LOADED, does nothing in FAULTED, and in UNLOADED latches BoundsError of the
pc. -/
def Obligations.StepInLoadedFaultedAndUnloaded : Prop :=
  ∀ s : State,
    (s.rs = .loaded → step s = .refused .stepInLoaded) ∧
    (s.rs = .faulted → step s = .next s) ∧
    (s.rs = .unloaded → s.loaded = false →
      step s = .next { s with
        rs := .faulted, fr := some ⟨.boundsError, s.pc, none, .address s.pc⟩ })

/-- R181, R194 (rows STEP): in every state of a unit that is not in LOADED, STEP gives a next state, and
from a run state other than FAULTED that one is RUNNING or FAULTED: no state of the unit is stuck, no
instruction ends in a fault outcome or a refusal. -/
def Obligations.EveryStepAnswersANextState : Prop :=
  ∀ s : State, s.Inv Config.unit → s.rs ≠ .loaded →
    ∃ t, step s = .next t ∧ (s.rs ≠ .faulted → t.rs = .running ∨ t.rs = .faulted)

/-- R141, R181: STEP of the model, which decodes to an instruction and runs its meaning, is STEP of the
table-driven engine over the catalog RC6, in every state. -/
def Obligations.StepIsTheTableDrivenEngine : Prop :=
  ∀ s : State, step s = (Engine.rc6 Config.unit).step s

/-- R183, R165, R251, for every catalog, behaviours that write before they fault included: a STEP that
latches a fault leaves `x`, `M`, `stack`, `pc`, `loaded` and `PLEN` as they were, and its record holds
the pc, and the word exactly when the fetch gave one. -/
def Obligations.FaultingStepHasNoOtherEffect : Prop :=
  ∀ (e : Engine) (s t : State), s.rs ≠ .faulted → e.step s = .next t → t.rs = .faulted →
    ∃ r, t = { s with rs := .faulted, fr := some r } ∧ r.fpc = s.pc ∧
      (∀ w, r.fword = some w ↔ fetch e.config s s.pc = .ok w)

/-- R53 (last paragraph), D3: a unit with `FETCH_BOUND = IMAGE` has every fault one with `MEMORY` has: a
STEP that completes under IMAGE completes under MEMORY with the same state. -/
def Obligations.ImageBoundFaultsWhereverMemoryBoundDoes : Prop :=
  ∀ (c : Config) (s t : State), c.loadOffset + s.plen ≤ c.memSize →
    (Engine.rc6 { c with fetchBound := .image }).step s = .next t → t.rs = .running →
    (Engine.rc6 { c with fetchBound := .memory }).step s = .next t

/-- Log 13, the model's own convention: from a state whose memory is in canonical form, the state with an
instruction placed is one in which STEP is defined, fetches that word, and so runs what it decodes to. -/
def Obligations.PlacedInstructionIsRunNext : Prop :=
  ∀ (s : State) (w : Nat) (i : Instr), s.mem.wf = true → decodeTableWord 16 w = some i →
    (s.withFetchWord 16 w).steppable ∧
    fetch Config.unit (s.withFetchWord 16 w) (s.withFetchWord 16 w).pc = .ok (BitVec.ofNat 16 w) ∧
    step (s.withFetchWord 16 w) = exec i (s.withFetchWord 16 w)

/-- R195: from a self-loop, JP to its own address, any further number of STEPs leaves `x`, `M`, `stack`
and `pc` as they were. -/
def Obligations.SelfLoopIsAFixedPoint : Prop :=
  ∀ (c : Config) (s : State) (a : Nat) (n : Nat), s.steppable → a < 0x1000 → s.pc = a →
    fetch c s s.pc = .ok (0x1000 ||| BitVec.ofNat 16 a) →
    (Engine.rc6 c).steps (n + 1) s = .next { s with rs := .running }

/-! ## Invariants -/

/-- R30, R282, R31: the state after reset, every field, and that it meets the invariants. -/
def Obligations.ResetStateMeetsTheInvariant : Prop :=
  State.reset.regs = List.replicate 16 0 ∧ State.reset.pc = 0x200 ∧ State.reset.mem = [] ∧
  State.reset.stack = [] ∧ State.reset.loaded = false ∧ State.reset.plen = 0 ∧
  State.reset.rs = .unloaded ∧ State.reset.fr = none ∧
  State.reset.Inv Config.unit ∧ State.reset.PcBounded Config.unit

/-- R31: every STEP of the unit keeps the invariants, from every state that meets them. -/
def Obligations.StepKeepsTheInvariant : Prop :=
  ∀ s t : State, s.Inv Config.unit → step s = .next t → t.Inv Config.unit

/-- R228: every STEP of the unit keeps the pc within 0 to MEM_SIZE + 2 (and the stack's entries within
memory), from every state of the unit in which they are. -/
def Obligations.StepKeepsThePcBound : Prop :=
  ∀ s t : State, s.Inv Config.unit → s.PcBounded Config.unit → step s = .next t →
    t.PcBounded Config.unit

/-- R31 for the whole unit: every host command that is accepted keeps the invariants, for every value of
the parameters, every catalog and every behaviour. -/
def Obligations.EveryCommandKeepsTheInvariant : Prop :=
  ∀ (e : Engine) (cmd : Command) (s t : State) (r : Reply), s.Inv e.config →
    e.command cmd s = .next (t, r) → t.Inv e.config

/-! ## The host commands -/

/-- R185: LOAD of an image that fits replaces the whole memory, leaves registers, stack and pc, and waits
in LOADED. -/
def Obligations.LoadReplacesTheWholeMemory : Prop :=
  ∀ (c : Config) (img : List Byte) (s : State), c.loadOffset + img.length ≤ c.memSize →
    ∃ t, loadCommand c (.image img) s = .next (t, .done) ∧
      (∀ a, t.mem.read a =
        if c.loadOffset ≤ a ∧ a < c.loadOffset + img.length then img.getD (a - c.loadOffset) 0 else 0) ∧
      t.plen = img.length ∧ t.loaded = true ∧ t.fr = none ∧ t.rs = .loaded ∧
      t.regs = s.regs ∧ t.stack = s.stack ∧ t.pc = s.pc

/-- R186, R247: a LOAD whose loader knows no such source fails and changes no state. -/
def Obligations.LoaderErrorLeavesTheState : Prop :=
  ∀ (e : Engine) (s : State),
    e.command (.load .noLoader) s = .next (s, .failed .loaderError)

/-- R197: an image that does not fit is refused, and one that just fits is not. -/
def Obligations.OversizeImageIsRefused : Prop :=
  ∀ (c : Config) (img : List Byte) (s : State),
    (∃ n, loadCommand c (.image img) s = .refused (.imageTooLarge n)) ↔
      c.memSize < c.loadOffset + img.length

/-- R187: RESET clears the registers, the stack and every byte outside the image window, keeps every byte
inside it as it stands, and sets the pc, `FR` and `RS`. -/
def Obligations.ResetClearsAllButTheImage : Prop :=
  ∀ (e : Engine) (s : State), ∃ t, e.command .reset s = .next (t, .done) ∧
    t.regs = List.replicate e.config.nreg 0 ∧ t.stack = [] ∧ t.pc = e.config.entry ∧
    (∀ a, t.mem.read a =
      if e.config.loadOffset ≤ a ∧ a < e.config.loadOffset + s.plen then s.mem.read a else 0) ∧
    t.fr = none ∧ t.rs = (if s.loaded then .ready else .unloaded) ∧
    t.loaded = s.loaded ∧ t.plen = s.plen

/-- R189: STOP changes RUNNING to HALTED and nothing else, and in every other run state nothing. -/
def Obligations.StopHaltsARunningUnit : Prop :=
  ∀ (e : Engine) (s : State),
    (s.rs = .running → e.command .stop s = .next ({ s with rs := .halted }, .done)) ∧
    (s.rs ≠ .running → e.command .stop s = .next (s, .done))

/-- R193, R190, R191: RESTORE of a snapshot the unit took, given in any later state, succeeds and brings
back `x`, `M`, `stack` and `pc` as they were, and leaves `loaded` and `PLEN`. -/
def Obligations.RestoreOfASnapshotBringsBackTheState : Prop :=
  ∀ (e : Engine) (s t : State), s.Inv e.config →
    ∃ snap u, e.command .snapshot s = .next (s, .snapshot snap) ∧
      e.command (.restore snap) t = .next (u, .done) ∧ u.sameContext s ∧
      u.loaded = t.loaded ∧ u.plen = t.plen ∧ u.fr = none ∧
      u.rs = (if t.loaded then .ready else .unloaded)

/-- R192, R248: a RESTORE whose identifier or version differs fails and changes no state; a matching,
well-shaped one replaces `x`, `M`, `stack` and `pc` by the snapshot's, clears `FR` and sets `RS`; a
matching one of the wrong shape is refused. -/
def Obligations.RestoreReplacesAllOrNothing : Prop :=
  ∀ (e : Engine) (snap : Snapshot) (s : State),
    ((snap.id ≠ e.config.archId ∨ snap.version ≠ e.config.snapVersion) →
      e.command (.restore snap) s = .next (s, .failed .snapshotMismatch)) ∧
    (snap.id = e.config.archId → snap.version = e.config.snapVersion →
      (snap.regs.length ≠ e.config.nreg ∨ snap.mem.length ≠ e.config.memSize ∨
        e.config.stackDepth < snap.stack.length ∨
        (∃ v ∈ snap.regs ++ snap.mem, v < 0 ∨ 255 < v)) →
      e.command (.restore snap) s = .refused .malformedSnapshot) ∧
    (snap.id = e.config.archId → snap.version = e.config.snapVersion →
      snap.regs.length = e.config.nreg → snap.mem.length = e.config.memSize →
      snap.stack.length ≤ e.config.stackDepth →
      (∀ v ∈ snap.regs ++ snap.mem, 0 ≤ v ∧ v ≤ 255) →
      ∃ t, e.command (.restore snap) s = .next (t, .done) ∧
        t.regs.map (fun b => (b.toNat : Int)) = snap.regs ∧
        (∀ a, ((t.mem.read a).toNat : Int) = snap.mem.getD a 0) ∧
        t.stack = snap.stack ∧ t.pc = snap.pc ∧ t.fr = none ∧
        t.rs = (if s.loaded then .ready else .unloaded) ∧ t.loaded = s.loaded ∧ t.plen = s.plen)

/-- R188, in every run state but LOADED: a RUN of no step changes nothing, a RUN of one step is STEP, and
a RUN of `n + 1` steps is STEP and then, unless that one ended in a fault, which it reports, a RUN of
`n`; so a RUN of `m + n` steps is a RUN of `m` and then one of `n`. In LOADED a RUN is refused. That the
number of steps is an argument of RUN is the model's form (log 14), the name of the refusal log 9. -/
def Obligations.RunIsStepAfterStep : Prop :=
  ∀ (e : Engine) (s : State),
    (s.rs ≠ .loaded →
      e.command (.run 0) s = .next (s, stepReply s) ∧
      e.command (.run 1) s = e.command .step s ∧
      (∀ (n : Nat) (t : State) (r : Reply), e.command .step s = .next (t, r) →
        e.command (.run (n + 1)) s =
          if t.rs = .faulted then .next (t, r) else e.command (.run n) t) ∧
      (∀ (n : Nat) (x : Refusal), e.command .step s = .refused x →
        e.command (.run (n + 1)) s = .refused x) ∧
      ∀ (m n : Nat) (t : State) (r : Reply), e.command (.run m) s = .next (t, r) →
        e.command (.run (m + n)) s = e.command (.run n) t) ∧
    (s.rs = .loaded → ∀ n, e.command (.run n) s = .refused .stepInLoaded)

/-- R194: the run state after each command that is accepted, as its table has it, and the refusals of
STEP and RUN in LOADED. -/
def Obligations.RunStateTable : Prop :=
  ∀ (e : Engine) (s : State), s.Inv e.config →
    (∀ (cmd : Command) (t : State) (r : Reply), e.command cmd s = .next (t, r) →
      match cmd with
      | .load (.image _) => t.rs = .loaded
      | .load .noLoader => t.rs = s.rs
      | .reset => t.rs = (if s.loaded then .ready else .unloaded)
      | .step =>
        if s.rs = .faulted then t.rs = .faulted
        else if s.rs = .unloaded then t.rs = .faulted else t.rs = .running ∨ t.rs = .faulted
      | .run n =>
        if n = 0 ∨ s.rs = .faulted then t.rs = s.rs
        else if s.rs = .unloaded then t.rs = .faulted else t.rs = .running ∨ t.rs = .faulted
      | .stop => t.rs = (if s.rs = .running then .halted else s.rs)
      | .snapshot | .top | .inspect => t.rs = s.rs
      | .restore snap =>
        if snap.id = e.config.archId ∧ snap.version = e.config.snapVersion
        then t.rs = (if s.loaded then .ready else .unloaded) else t.rs = s.rs) ∧
    (s.rs = .loaded → e.command .step s = .refused .stepInLoaded ∧
      ∀ n, e.command (.run n) s = .refused .stepInLoaded)

/-- R252, R257: while a fault is latched, a command that is accepted either is a LOAD, RESET or RESTORE
that clears it or leaves the whole state as it is; STEP and RUN report the latched fault again. -/
def Obligations.OnlyTheHostClearsALatchedFault : Prop :=
  ∀ (e : Engine) (s : State) (record : FaultRecord), s.rs = .faulted → s.fr = some record →
    (∀ (cmd : Command) (t : State) (r : Reply), e.command cmd s = .next (t, r) →
      t = s ∨ (t.fr = none ∧ t.rs ≠ .faulted ∧
        ((∃ img, cmd = .load (.image img)) ∨ cmd = .reset ∨ ∃ snap, cmd = .restore snap))) ∧
    e.command .step s = .next (s, .fault record) ∧
    ∀ n, e.command (.run n) s = .next (s, .fault record)

/-- R190, R196, R157: SNAPSHOT, TOP and INSPECT change nothing; TOP of an empty stack is `none`, and
INSPECT gives the stack bottom first. -/
def Obligations.HostReadsChangeNothing : Prop :=
  ∀ (e : Engine) (s : State),
    (∃ snap, e.command .snapshot s = .next (s, .snapshot snap) ∧
      snap.id = e.config.archId ∧ snap.version = e.config.snapVersion ∧
      snap.regs = s.regs.map (fun v => (v.toNat : Int)) ∧ snap.mem.length = e.config.memSize ∧
      (∀ a < e.config.memSize, snap.mem[a]? = some ((s.mem.read a).toNat : Int)) ∧
      snap.stack = s.stack ∧ snap.pc = s.pc) ∧
    (s.stack = [] → e.command .top s = .next (s, .top none)) ∧
    (∀ older v, s.stack = older ++ [v] → e.command .top s = .next (s, .top (some v))) ∧
    e.command .inspect s = .next (s, .stack s.stack)
end

