-- ==== Sys2Proof/Laws/Memory.lean ====
section
/-! SUPPORT. The laws of the memory as data: read after write, and that every operation keeps the
canonical form and the bound (Machine/Ops.lean). -/

namespace Sys2Proof.Machine

theorem Memory.unlisted_eq : Memory.unlisted = 0 := rfl

@[simp] theorem Memory.read_nil (k : Nat) : Memory.read [] k = 0 := rfl

@[simp] theorem Memory.wf_nil : Memory.wf [] = true := rfl

@[simp] theorem Memory.below_nil (n : Nat) : Memory.below n [] = true := rfl

/-- The canonical form says more the higher it starts. -/
theorem Memory.wfFrom_mono {lo lo' : Nat} {m : Memory} (hle : lo' ≤ lo)
    (h : Memory.wfFrom lo m = true) : Memory.wfFrom lo' m = true := by
  cases m with
  | nil => rfl
  | cons cell m =>
    simp only [Memory.wfFrom, Bool.and_eq_true, decide_eq_true_eq] at h ⊢
    exact ⟨⟨by omega, h.1.2⟩, h.2⟩

/-- Below its first listed address a memory reads as unlisted. -/
theorem Memory.read_of_lt {lo : Nat} {m : Memory} (h : Memory.wfFrom lo m = true) {k : Nat}
    (hk : k < lo) : Memory.read m k = 0 := by
  induction m generalizing lo with
  | nil => rfl
  | cons cell m ih =>
    obtain ⟨a, v⟩ := cell
    simp only [Memory.wfFrom, Bool.and_eq_true, decide_eq_true_eq] at h
    have hne : k ≠ a := by omega
    simp only [Memory.read, hne, if_false]
    exact ih h.2 (by omega)

/-- A read after a write: the byte written there, and every other byte as it was. -/
theorem Memory.read_write {lo : Nat} {m : Memory} (h : Memory.wfFrom lo m = true) (k : Nat) (v : Byte)
    (j : Nat) : (m.write k v).read j = if j = k then v else m.read j := by
  induction m generalizing lo with
  | nil =>
    by_cases hv : v = Memory.unlisted
    · subst hv; simp [Memory.write, Memory.read, Memory.unlisted_eq]
    · simp [Memory.write, hv, Memory.read]
  | cons cell m ih =>
    obtain ⟨a, x⟩ := cell
    simp only [Memory.wfFrom, Bool.and_eq_true, decide_eq_true_eq] at h
    unfold Memory.write
    by_cases hlt : k < a
    · by_cases hv : v = Memory.unlisted
      · have hread : Memory.read ((a, x) :: m) k = 0 :=
          Memory.read_of_lt (lo := a) (by simp [Memory.wfFrom, h.1.2, h.2]) hlt
        simp only [hlt, hv, if_true]
        split
        · rename_i hjk; subst hjk; exact hread
        · rfl
      · simp only [hlt, hv, if_true, if_false]
        rw [Memory.read]
    · by_cases heq : k = a
      · subst heq
        by_cases hv : v = Memory.unlisted
        · simp only [lt_irrefl, hv, if_true, if_false]
          by_cases hj : j = k
          · subst hj; simpa [Memory.unlisted_eq] using Memory.read_of_lt h.2 (Nat.lt_succ_self j)
          · simp [hj, Memory.read]
        · simp only [lt_irrefl, hv, if_true, if_false]
          by_cases hj : j = k <;> simp [hj, Memory.read]
      · simp only [hlt, heq, if_false]
        by_cases hj : j = a
        · subst hj
          have : j ≠ k := fun h => heq h.symm
          simp [Memory.read, this]
        · simp only [Memory.read, hj, if_false]
          exact ih h.2

/-- A write keeps the canonical form. -/
theorem Memory.wfFrom_write {lo : Nat} {m : Memory} (h : Memory.wfFrom lo m = true) {k : Nat}
    (hk : lo ≤ k) (v : Byte) : Memory.wfFrom lo (m.write k v) = true := by
  induction m generalizing lo with
  | nil =>
    by_cases hv : v = Memory.unlisted <;> simp [Memory.write, hv, Memory.wfFrom, hk]
  | cons cell m ih =>
    obtain ⟨a, x⟩ := cell
    have h' := h
    simp only [Memory.wfFrom, Bool.and_eq_true, decide_eq_true_eq] at h
    unfold Memory.write
    by_cases hlt : k < a
    · by_cases hv : v = Memory.unlisted
      · simpa [hlt, hv] using h'
      · simp [hlt, hv, Memory.wfFrom, hk, h.1.2, h.2, Nat.succ_le_of_lt hlt]
    · by_cases heq : k = a
      · subst heq
        by_cases hv : v = Memory.unlisted
        · simpa [hv] using Memory.wfFrom_mono (by omega) h.2
        · simp [hv, Memory.wfFrom, hk, h.2]
      · simp only [hlt, heq, if_false, Memory.wfFrom, Bool.and_eq_true, decide_eq_true_eq]
        exact ⟨h.1, ih h.2 (by omega)⟩

theorem Memory.wf_write {m : Memory} (h : m.wf = true) (k : Nat) (v : Byte) :
    (m.write k v).wf = true :=
  Memory.wfFrom_write h (Nat.zero_le k) v

/-- A write below the bound keeps the bound. -/
theorem Memory.below_write {n : Nat} {m : Memory} (h : m.below n = true) {k : Nat} (hk : k < n)
    (v : Byte) : (m.write k v).below n = true := by
  induction m with
  | nil => by_cases hv : v = Memory.unlisted <;> simp [Memory.write, hv, Memory.below, hk]
  | cons cell m ih =>
    obtain ⟨a, x⟩ := cell
    simp only [Memory.below, List.all_cons, Bool.and_eq_true, decide_eq_true_eq] at h ih
    unfold Memory.write
    split
    · split <;> simp [Memory.below, h.1, hk] <;> simpa using h.2
    · split
      · split
        · exact h.2
        · simp [Memory.below, hk]; simpa using h.2
      · simp only [Memory.below, List.all_cons, h.1, decide_true, Bool.true_and]
        exact ih h.2

/-- Bytes laid out from `base` on keep the canonical form. -/
theorem Memory.wf_install {m : Memory} (h : m.wf = true) (base : Nat) (bytes : List Byte) :
    (m.install base bytes).wf = true := by
  induction bytes generalizing m base with
  | nil => exact h
  | cons b bs ih => exact ih (Memory.wf_write h base b) (base + 1)

theorem Memory.below_install {n : Nat} {m : Memory} (h : m.below n = true) {base : Nat}
    {bytes : List Byte} (hn : base + bytes.length ≤ n) : (m.install base bytes).below n = true := by
  induction bytes generalizing m base with
  | nil => exact h
  | cons b bs ih =>
    simp only [List.length_cons] at hn
    exact ih (Memory.below_write h (by omega) b) (by omega)

/-- What a memory reads as after bytes are laid out from `base` on. -/
theorem Memory.read_install {m : Memory} (h : m.wf = true) (base : Nat) (bytes : List Byte) (a : Nat) :
    (m.install base bytes).read a =
      if base ≤ a ∧ a < base + bytes.length then bytes.getD (a - base) 0 else m.read a := by
  induction bytes generalizing m base with
  | nil =>
    have : ¬ (base ≤ a ∧ a < base + 0) := by omega
    simp only [Memory.install, List.length_nil, this, if_false]
  | cons b bs ih =>
    rw [Memory.install, ih (Memory.wf_write h base b), Memory.read_write h, List.length_cons]
    by_cases h1 : a = base
    · subst h1
      rw [if_neg (by omega), if_pos rfl, if_pos (by omega), Nat.sub_self, List.getD_cons_zero]
    · by_cases h2 : base + 1 ≤ a ∧ a < base + 1 + bs.length
      · have : a - base = a - (base + 1) + 1 := by omega
        rw [if_pos h2, if_pos (by omega), this, List.getD_cons_succ]
      · rw [if_neg h2, if_neg h1, if_neg (by omega)]

theorem Memory.wfFrom_filter {lo : Nat} {m : Memory} (h : Memory.wfFrom lo m = true)
    (p : Host.Cell → Bool) : Memory.wfFrom lo (m.filter p) = true := by
  induction m generalizing lo with
  | nil => rfl
  | cons cell m ih =>
    obtain ⟨a, v⟩ := cell
    simp only [Memory.wfFrom, Bool.and_eq_true, decide_eq_true_eq] at h
    rw [List.filter_cons]
    split
    · simp only [Memory.wfFrom, Bool.and_eq_true, decide_eq_true_eq]
      exact ⟨h.1, ih h.2⟩
    · exact Memory.wfFrom_mono (by omega) (ih h.2)

/-- Keeping a window of the memory keeps the canonical form. -/
theorem Memory.wf_keepWindow {m : Memory} (h : m.wf = true) (base len : Nat) :
    (m.keepWindow base len).wf = true :=
  Memory.wfFrom_filter h _

theorem Memory.below_keepWindow {n : Nat} {m : Memory} (h : m.below n = true) (base len : Nat) :
    (m.keepWindow base len).below n = true := by
  simp only [Memory.below, Memory.keepWindow, List.all_eq_true, List.mem_filter] at h ⊢
  exact fun cell hc => h cell hc.1

/-- What a memory reads as when only a window of it is kept. -/
theorem Memory.read_keepWindow {m : Memory} (base len a : Nat) :
    (m.keepWindow base len).read a = if base ≤ a ∧ a < base + len then m.read a else 0 := by
  induction m with
  | nil => simp [Memory.keepWindow]
  | cons cell m ih =>
    obtain ⟨k, v⟩ := cell
    simp only [Memory.keepWindow] at ih ⊢
    rw [List.filter_cons]
    by_cases hk : base ≤ k ∧ k < base + len
    · simp only [hk, decide_true, Bool.and_self, if_true, Memory.read, ih]
      by_cases hak : a = k
      · subst hak; simp [hk]
      · simp [hak]
    · have hk' : (decide (base ≤ k) && decide (k < base + len)) = false := by simpa using hk
      simp only [hk', Memory.read, Bool.false_eq_true, if_false, ih]
      by_cases hak : a = k
      · subst hak; simp [hk]
      · simp [hak]

/-- At or beyond its bound a memory reads as unlisted. -/
theorem Memory.read_of_below {n : Nat} {m : Memory} (h : m.below n = true) {k : Nat} (hk : n ≤ k) :
    m.read k = 0 := by
  induction m with
  | nil => rfl
  | cons cell m ih =>
    obtain ⟨a, v⟩ := cell
    simp only [Memory.below, List.all_cons, Bool.and_eq_true, decide_eq_true_eq] at h ih
    have : k ≠ a := by omega
    simp only [Memory.read, this, if_false]
    exact ih h.2

/-- Two memories in canonical form that read the same everywhere are the same list. -/
theorem Memory.eq_of_read {lo lo' : Nat} {m m' : Memory} (h : Memory.wfFrom lo m = true)
    (h' : Memory.wfFrom lo' m' = true) (hr : ∀ a, m.read a = m'.read a) : m = m' := by
  induction m generalizing lo lo' m' with
  | nil =>
    cases m' with
    | nil => rfl
    | cons cell' m' =>
      obtain ⟨a, v⟩ := cell'
      simp only [Memory.wfFrom, Bool.and_eq_true, decide_eq_true_eq] at h'
      have := hr a
      simp only [Memory.read, if_true] at this
      exact absurd this.symm h'.1.2
  | cons cell m ih =>
    obtain ⟨a, v⟩ := cell
    simp only [Memory.wfFrom, Bool.and_eq_true, decide_eq_true_eq] at h
    cases m' with
    | nil =>
      have := hr a
      simp only [Memory.read, if_true] at this
      exact absurd this h.1.2
    | cons cell' m' =>
      obtain ⟨a', v'⟩ := cell'
      simp only [Memory.wfFrom, Bool.and_eq_true, decide_eq_true_eq] at h'
      have haa : a = a' := by
        rcases lt_trichotomy a a' with hlt | heq | hgt
        · have hz : Memory.read ((a', v') :: m') a = 0 :=
            Memory.read_of_lt (lo := a') (by simp [Memory.wfFrom, h'.1.2, h'.2]) hlt
          have := hr a
          rw [hz] at this
          simp only [Memory.read, if_true] at this
          exact absurd this h.1.2
        · exact heq
        · have hz : Memory.read ((a, v) :: m) a' = 0 :=
            Memory.read_of_lt (lo := a) (by simp [Memory.wfFrom, h.1.2, h.2]) hgt
          have := hr a'
          rw [hz] at this
          simp only [Memory.read, if_true] at this
          exact absurd this.symm h'.1.2
      subst haa
      have hvv : v = v' := by simpa [Memory.read] using hr a
      subst hvv
      have htail : m = m' := by
        refine ih h.2 h'.2 fun k => ?_
        by_cases hk : k = a
        · subst hk
          rw [Memory.read_of_lt h.2 (Nat.lt_succ_self k), Memory.read_of_lt h'.2 (Nat.lt_succ_self k)]
        · simpa [Memory.read, hk] using hr k
      rw [htail]

end Sys2Proof.Machine
end

