-- ==== Sys2Proof/Laws/State.lean ====
section
/-! SUPPORT. For each named update of the state (Machine/Ops.lean), what it leaves in each field: one lemma a
field and update, so that no proof unfolds a record update. -/

namespace Sys2Proof.Machine

@[simp] theorem setReg_regs (s : State) (i : Nat) (v : Byte) : (s.setReg i v).regs = s.regs.set i v := rfl
@[simp] theorem setReg_pc (s : State) (i : Nat) (v : Byte) : (s.setReg i v).pc = s.pc := rfl
@[simp] theorem setReg_mem (s : State) (i : Nat) (v : Byte) : (s.setReg i v).mem = s.mem := rfl
@[simp] theorem setReg_stack (s : State) (i : Nat) (v : Byte) : (s.setReg i v).stack = s.stack := rfl
@[simp] theorem setReg_loaded (s : State) (i : Nat) (v : Byte) : (s.setReg i v).loaded = s.loaded := rfl
@[simp] theorem setReg_plen (s : State) (i : Nat) (v : Byte) : (s.setReg i v).plen = s.plen := rfl
@[simp] theorem setReg_rs (s : State) (i : Nat) (v : Byte) : (s.setReg i v).rs = s.rs := rfl
@[simp] theorem setReg_fr (s : State) (i : Nat) (v : Byte) : (s.setReg i v).fr = s.fr := rfl

@[simp] theorem setByte_regs (s : State) (a : Nat) (v : Byte) : (s.setByte a v).regs = s.regs := rfl
@[simp] theorem setByte_pc (s : State) (a : Nat) (v : Byte) : (s.setByte a v).pc = s.pc := rfl
@[simp] theorem setByte_mem (s : State) (a : Nat) (v : Byte) : (s.setByte a v).mem = s.mem.write a v := rfl
@[simp] theorem setByte_stack (s : State) (a : Nat) (v : Byte) : (s.setByte a v).stack = s.stack := rfl
@[simp] theorem setByte_loaded (s : State) (a : Nat) (v : Byte) : (s.setByte a v).loaded = s.loaded := rfl
@[simp] theorem setByte_plen (s : State) (a : Nat) (v : Byte) : (s.setByte a v).plen = s.plen := rfl
@[simp] theorem setByte_rs (s : State) (a : Nat) (v : Byte) : (s.setByte a v).rs = s.rs := rfl
@[simp] theorem setByte_fr (s : State) (a : Nat) (v : Byte) : (s.setByte a v).fr = s.fr := rfl

@[simp] theorem setStack_regs (s : State) (st : List Int) : (s.setStack st).regs = s.regs := rfl
@[simp] theorem setStack_pc (s : State) (st : List Int) : (s.setStack st).pc = s.pc := rfl
@[simp] theorem setStack_mem (s : State) (st : List Int) : (s.setStack st).mem = s.mem := rfl
@[simp] theorem setStack_stack (s : State) (st : List Int) : (s.setStack st).stack = st := rfl
@[simp] theorem setStack_loaded (s : State) (st : List Int) : (s.setStack st).loaded = s.loaded := rfl
@[simp] theorem setStack_plen (s : State) (st : List Int) : (s.setStack st).plen = s.plen := rfl
@[simp] theorem setStack_rs (s : State) (st : List Int) : (s.setStack st).rs = s.rs := rfl
@[simp] theorem setStack_fr (s : State) (st : List Int) : (s.setStack st).fr = s.fr := rfl

@[simp] theorem complete_regs (s : State) : (s.complete).regs = s.regs := rfl
@[simp] theorem complete_pc (s : State) : (s.complete).pc = s.pc := rfl
@[simp] theorem complete_mem (s : State) : (s.complete).mem = s.mem := rfl
@[simp] theorem complete_stack (s : State) : (s.complete).stack = s.stack := rfl
@[simp] theorem complete_loaded (s : State) : (s.complete).loaded = s.loaded := rfl
@[simp] theorem complete_plen (s : State) : (s.complete).plen = s.plen := rfl
@[simp] theorem complete_rs (s : State) : (s.complete).rs = .running := rfl
@[simp] theorem complete_fr (s : State) : (s.complete).fr = s.fr := rfl

@[simp] theorem jump_regs (s : State) (t : Int) : (jump s t).regs = s.regs := rfl
@[simp] theorem jump_pc (s : State) (t : Int) : (jump s t).pc = t := rfl
@[simp] theorem jump_mem (s : State) (t : Int) : (jump s t).mem = s.mem := rfl
@[simp] theorem jump_stack (s : State) (t : Int) : (jump s t).stack = s.stack := rfl
@[simp] theorem jump_loaded (s : State) (t : Int) : (jump s t).loaded = s.loaded := rfl
@[simp] theorem jump_plen (s : State) (t : Int) : (jump s t).plen = s.plen := rfl
@[simp] theorem jump_rs (s : State) (t : Int) : (jump s t).rs = s.rs := rfl
@[simp] theorem jump_fr (s : State) (t : Int) : (jump s t).fr = s.fr := rfl

@[simp] theorem hop_regs (s : State) (d : Int) : (hop s d).regs = s.regs := rfl
@[simp] theorem hop_pc (s : State) (d : Int) : (hop s d).pc = s.pc + 2 * d := rfl
@[simp] theorem hop_mem (s : State) (d : Int) : (hop s d).mem = s.mem := rfl
@[simp] theorem hop_stack (s : State) (d : Int) : (hop s d).stack = s.stack := rfl
@[simp] theorem hop_loaded (s : State) (d : Int) : (hop s d).loaded = s.loaded := rfl
@[simp] theorem hop_plen (s : State) (d : Int) : (hop s d).plen = s.plen := rfl
@[simp] theorem hop_rs (s : State) (d : Int) : (hop s d).rs = s.rs := rfl
@[simp] theorem hop_fr (s : State) (d : Int) : (hop s d).fr = s.fr := rfl

@[simp] theorem advance_regs (s : State) : (advance s).regs = s.regs := rfl
@[simp] theorem advance_pc (s : State) : (advance s).pc = s.pc + 2 := rfl
@[simp] theorem advance_mem (s : State) : (advance s).mem = s.mem := rfl
@[simp] theorem advance_stack (s : State) : (advance s).stack = s.stack := rfl
@[simp] theorem advance_loaded (s : State) : (advance s).loaded = s.loaded := rfl
@[simp] theorem advance_plen (s : State) : (advance s).plen = s.plen := rfl
@[simp] theorem advance_rs (s : State) : (advance s).rs = s.rs := rfl
@[simp] theorem advance_fr (s : State) : (advance s).fr = s.fr := rfl

@[simp] theorem takeFault_regs (s : State) (f : Fault) (w : Option Word) : (takeFault s f w).regs = s.regs := rfl
@[simp] theorem takeFault_pc (s : State) (f : Fault) (w : Option Word) : (takeFault s f w).pc = s.pc := rfl
@[simp] theorem takeFault_mem (s : State) (f : Fault) (w : Option Word) : (takeFault s f w).mem = s.mem := rfl
@[simp] theorem takeFault_stack (s : State) (f : Fault) (w : Option Word) : (takeFault s f w).stack = s.stack := rfl
@[simp] theorem takeFault_loaded (s : State) (f : Fault) (w : Option Word) : (takeFault s f w).loaded = s.loaded := rfl
@[simp] theorem takeFault_plen (s : State) (f : Fault) (w : Option Word) : (takeFault s f w).plen = s.plen := rfl
@[simp] theorem takeFault_rs (s : State) (f : Fault) (w : Option Word) : (takeFault s f w).rs = .faulted := rfl
@[simp] theorem takeFault_fr (s : State) (f : Fault) (w : Option Word) : (takeFault s f w).fr = some ⟨f.kind, s.pc, w, f.info⟩ := rfl

@[simp] theorem clearFault_regs (s : State) : (clearFault s).regs = s.regs := rfl
@[simp] theorem clearFault_pc (s : State) : (clearFault s).pc = s.pc := rfl
@[simp] theorem clearFault_mem (s : State) : (clearFault s).mem = s.mem := rfl
@[simp] theorem clearFault_stack (s : State) : (clearFault s).stack = s.stack := rfl
@[simp] theorem clearFault_loaded (s : State) : (clearFault s).loaded = s.loaded := rfl
@[simp] theorem clearFault_plen (s : State) : (clearFault s).plen = s.plen := rfl
@[simp] theorem clearFault_rs (s : State) : (clearFault s).rs = if s.loaded then .ready else .unloaded := rfl
@[simp] theorem clearFault_fr (s : State) : (clearFault s).fr = none := rfl

/-- Two states with the same fields are the same state. -/
theorem State.ext_fields {s t : State} (h1 : s.regs = t.regs) (h2 : s.pc = t.pc) (h3 : s.mem = t.mem)
    (h4 : s.stack = t.stack) (h5 : s.loaded = t.loaded) (h6 : s.plen = t.plen) (h7 : s.rs = t.rs)
    (h8 : s.fr = t.fr) : s = t := by
  cases s; cases t; simp_all

/-- What the unit's parameters are: the reference instance (00_scope.md section 3). -/
@[simp] theorem unit_memSize : Config.unit.memSize = 4096 := rfl
@[simp] theorem unit_nreg : Config.unit.nreg = 16 := rfl
@[simp] theorem unit_stackDepth : Config.unit.stackDepth = 16 := rfl
@[simp] theorem unit_entry : Config.unit.entry = 0x200 := rfl
@[simp] theorem unit_loadOffset : Config.unit.loadOffset = 0x200 := rfl
@[simp] theorem unit_linkBias : Config.unit.linkBias = 0 := rfl

end Sys2Proof.Machine
end

