-- ==== Sys2Proof/Laws/Ops.lean ====
section
/-! SUPPORT. For each shared operation of Machine/Flags.lean, Ops.lean and Operands.lean, one lemma that
says everything it can do. -/

namespace Sys2Proof.Machine

/-! ## Bytes, words, arithmetic -/

/-- The cast of an integer is a value of `w` bits. -/
theorem castTo_mem (n : Int) (w : Nat) : 0 ≤ castTo n w ∧ castTo n w < 2 ^ w :=
  ⟨Int.emod_nonneg n (by positivity), Int.emod_lt_of_pos n (by positivity)⟩

/-- The cast is the identity exactly on values in range (R111). -/
theorem castTo_eq_self_iff (n : Int) (w : Nat) : castTo n w = n ↔ 0 ≤ n ∧ n < 2 ^ w :=
  ⟨fun h => h ▸ castTo_mem n w, fun h => Int.emod_eq_of_lt h.1 h.2⟩

/-- The flag of `wrap` (R113). -/
theorem wrap_flag (n : Int) (w : Nat) :
    (wrap n w).2 = if 0 ≤ n ∧ n < 2 ^ w then .ok else .overflow := by
  simp only [wrap, castTo_eq_self_iff]

/-- What a cell holds after a write of `v`, as a number. -/
theorem byteOfInt_toNat (v : Int) : ((byteOfInt v).toNat : Int) = castTo v 8 := by
  have h := castTo_mem v 8
  simp only [byteOfInt, BitVec.toNat_ofNat]
  omega

/-- A byte's own value written back is that byte. -/
@[simp] theorem byteOfInt_of_toNat (b : Byte) : byteOfInt (b.toNat : Int) = b := by
  apply BitVec.eq_of_toNat_eq
  have h := byteOfInt_toNat (b.toNat : Int)
  have hb := b.isLt
  rw [castTo, Int.emod_eq_of_lt (by omega) (by omega)] at h
  omega

/-- The big-endian composition (R52). -/
theorem wordOfBytes_toNat (first second : Byte) :
    (wordOfBytes first second).toNat = first.toNat * 256 + second.toNat := by
  have h1 := first.isLt
  have h2 := second.isLt
  simp only [wordOfBytes, BitVec.toNat_append]
  rw [← Nat.shiftLeft_add_eq_or_of_lt (by omega), Nat.shiftLeft_eq]

/-- A word is composed of its two bytes (R81). -/
@[simp] theorem wordOfBytes_bytes (w : Word) : wordOfBytes (firstByte w) (secondByte w) = w := by
  apply BitVec.eq_of_toNat_eq
  rw [wordOfBytes_toNat]
  have h := w.isLt
  simp only [firstByte, secondByte, BitVec.extractLsb'_toNat, Nat.shiftRight_eq_div_pow]
  omega

/-! ## Fetch -/

/-- `beyondFetchLast` asks the unit's own bound (R53, R197). -/
theorem beyondFetchLast_eq (c : Config) (plen : Nat) (a : Int) :
    beyondFetchLast c plen a = beyondBound c plen a c.fetchBound := by
  unfold beyondFetchLast
  cases c.fetchBound <;> split <;> simp_all

/-- What a bound forbids, as a proposition. -/
theorem beyondBound_eq_true {c : Config} {plen : Nat} {a : Int} {b : FetchBound} :
    beyondBound c plen a b = true ↔ fetchLast c plen b < a ∨ (b = .image ∧ plen = 0) := by
  simp [beyondBound]

/-- Everything a fetch can do (R53, R197). -/
theorem fetch_eq (c : Config) (s : State) (a : Int) :
    fetch c s a =
      if s.loaded = true ∧ 0 ≤ a ∧ a + 1 ≤ fetchLast c s.plen c.fetchBound ∧
          (c.fetchBound = .image → s.plen ≠ 0) then
        .ok (wordOfBytes (s.mem.read a.toNat) (s.mem.read (a.toNat + 1)))
      else .error (.boundsError a) := by
  unfold fetch
  rw [beyondFetchLast_eq]
  by_cases hl : s.loaded = false
  · simp [hl]
  · by_cases ha : a < 0
    · rw [if_neg hl, if_pos ha, if_neg (by omega)]
    · by_cases hb : beyondBound c s.plen (a + 1) c.fetchBound = true
      · rw [if_neg hl, if_neg ha, if_pos hb, if_neg]
        rintro ⟨-, -, hlast, hlen⟩
        rcases beyondBound_eq_true.1 hb with h | ⟨h, h0⟩
        · omega
        · exact hlen h h0
      · have hn : (a + 1).toNat = a.toNat + 1 := by omega
        rw [if_neg hl, if_neg ha, if_neg hb, if_pos, hn]
        rw [beyondBound_eq_true, not_or] at hb
        exact ⟨by simpa using hl, by omega, by omega, fun h h0 => hb.2 ⟨h, h0⟩⟩

/-- A fetch that succeeds, and under which conditions. -/
theorem fetch_ok {c : Config} {s : State} {a : Int} {w : Word} (h : fetch c s a = .ok w) :
    s.loaded = true ∧ 0 ≤ a ∧ a + 1 ≤ fetchLast c s.plen c.fetchBound ∧
      (c.fetchBound = .image → s.plen ≠ 0) ∧
      w = wordOfBytes (s.mem.read a.toNat) (s.mem.read (a.toNat + 1)) := by
  rw [fetch_eq] at h
  split at h
  · rename_i hc
    cases h
    exact ⟨hc.1, hc.2.1, hc.2.2.1, hc.2.2.2, rfl⟩
  · cases h

/-- A fetch that faults raises BoundsError of its address. -/
theorem fetch_error {c : Config} {s : State} {a : Int} {f : Fault} (h : fetch c s a = .error f) :
    f = .boundsError a := by
  rw [fetch_eq] at h
  split at h <;> cases h
  rfl

/-- With the loaded image inside the memory, a fetchable word lies inside the memory. -/
theorem fetch_in_memory {c : Config} {s : State} {a : Int} {w : Word} (h : fetch c s a = .ok w)
    (hfit : c.loadOffset + s.plen ≤ c.memSize) : 0 ≤ a ∧ a + 2 ≤ c.memSize := by
  obtain ⟨-, h0, hlast, -, -⟩ := fetch_ok h
  unfold fetchLast at hlast
  split at hlast <;> omega

/-! ## Data access, the call stack, the registers -/

/-- Everything `MemWrite` can do when it succeeds (R56). -/
theorem memWrite_ok {c : Config} {s t : State} {a v : Int} (h : memWrite c s a v = .ok t) :
    0 ≤ a ∧ a < c.memSize ∧ t = s.setByte a.toNat (byteOfInt v) := by
  unfold memWrite inMemory at h
  split at h
  · rename_i hc
    cases h
    simp only [Bool.and_eq_true, decide_eq_true_eq] at hc
    exact ⟨hc.1, by omega, rfl⟩
  · cases h

/-- Everything `push` can do when it succeeds (R155). -/
theorem push_ok {c : Config} {s t : State} {v : Int} (h : push c s v = .ok t) :
    s.stack.length ≠ c.stackDepth ∧ t = s.setStack (s.stack ++ [v]) := by
  unfold push at h
  split at h <;> cases h
  exact ⟨‹_›, rfl⟩

/-- Everything `pop` can do when it succeeds (R156). -/
theorem pop_ok {s t : State} {v : Int} (h : pop s = .ok (v, t)) :
    s.stack = s.stack.dropLast ++ [v] ∧ t = s.setStack s.stack.dropLast := by
  unfold pop at h
  split at h
  · cases h
  · rename_i x hx
    cases h
    exact ⟨(List.dropLast_append_getLast? v hx).symm, rfl⟩

/-- Everything a register write can do when it succeeds (R152). -/
theorem writeReg_ok {c : Config} {s t : State} {i v : Int} (h : writeReg c s i v = .ok t) :
    0 ≤ i ∧ i < c.nreg ∧ t = s.setReg i.toNat (byteOfInt v) := by
  unfold writeReg hasReg at h
  split at h
  · rename_i hc
    cases h
    simp only [Bool.and_eq_true, decide_eq_true_eq] at hc
    exact ⟨hc.1, by omega, rfl⟩
  · cases h

/-- The register file holds `v` at `i` after it is written there, and nothing else changes. -/
theorem getD_set (l : List Byte) (i j : Nat) (v : Byte) (hi : i < l.length) :
    (l.set i v).getD j 0 = if j = i then v else l.getD j 0 := by
  by_cases h : j = i
  · subst h; simp [List.getD, hi]
  · have : i ≠ j := fun e => h e.symm
    simp [List.getD, h, List.getElem?_set_ne this]

end Sys2Proof.Machine
end

