-- ==== Sys2Proof/Laws/Context.lean ====
section
/-! SUPPORT. What a behaviour, the execute phase and the step sequencer can do (Machine/Context.lean,
Machine/Sequencer.lean, Machine/Engine.lean): one inversion lemma each, and the one induction over the
primitives of a behaviour. -/

namespace Sys2Proof.Machine

/-- The induction over a behaviour, packaged once: a property of the state that each writing primitive
keeps is kept by every behaviour that completes. -/
theorem Behaviour.run_keeps {c : Config} (P : State → Prop)
    (hReg : ∀ (s : State) (i v : Int), P s → 0 ≤ i → i < c.nreg → P (s.setReg i.toNat (byteOfInt v)))
    (hMem : ∀ (s : State) (a v : Int), P s → 0 ≤ a → a < c.memSize → P (s.setByte a.toNat (byteOfInt v)))
    (hPush : ∀ s v, P s → s.stack.length ≠ c.stackDepth → P (s.setStack (s.stack ++ [v])))
    (hPop : ∀ s, P s → P (s.setStack s.stack.dropLast))
    (hJump : ∀ s t, P s → P (Machine.jump s t))
    (hHop : ∀ s d, P s → P (Machine.hop s d))
    (b : Behaviour) {s t : State} (hs : P s) (h : b.run c s = .next t) : P t := by
  induction b generalizing s with
  | done => cases h; exact hs
  | readReg i k ih =>
    simp only [Behaviour.run] at h
    split at h
    · exact ih _ hs h
    · cases h
  | writeReg i v k ih =>
    simp only [Behaviour.run] at h
    split at h
    · rename_i u hu
      obtain ⟨h0, h1, rfl⟩ := writeReg_ok hu
      exact ih (hReg s i v hs h0 h1) h
    · cases h
  | memRead a k ih =>
    simp only [Behaviour.run] at h
    split at h
    · exact ih _ hs h
    · cases h
  | memReadPair a k ih =>
    simp only [Behaviour.run] at h
    split at h
    · exact ih _ hs h
    · cases h
  | memWrite a v k ih =>
    simp only [Behaviour.run] at h
    split at h
    · rename_i u hu
      obtain ⟨h0, h1, rfl⟩ := memWrite_ok hu
      exact ih (hMem s a v hs h0 h1) h
    · cases h
  | push v k ih =>
    simp only [Behaviour.run] at h
    split at h
    · rename_i u hu
      obtain ⟨h0, rfl⟩ := push_ok hu
      exact ih (hPush s v hs h0) h
    · cases h
  | pop k ih =>
    simp only [Behaviour.run] at h
    split at h
    · rename_i v u hu
      obtain ⟨-, rfl⟩ := pop_ok hu
      exact ih v (hPop s hs) h
    · cases h
  | top k ih => exact ih _ hs h
  | inspect k ih => exact ih _ hs h
  | readPc k ih => exact ih _ hs h
  | jump t k ih => exact ih (hJump s t hs) h
  | hop d k ih => exact ih (hHop s d hs) h

/-- The execute phase gives a next state in two ways: the behaviour completed, or its fault was taken. -/
theorem executePhase_next {c : Config} {w : Word} {b : Behaviour} {s t : State}
    (h : executePhase c w b s = .next t) :
    (∃ u, b.run c (advance s) = .next u ∧ t = u.complete) ∨
    (∃ f, b.run c (advance s) = .fault f ∧ t = takeFault s f (some w)) := by
  unfold executePhase at h
  split at h
  · rename_i u hu; cases h; exact .inl ⟨u, hu, rfl⟩
  · rename_i f hf; cases h; exact .inr ⟨f, hf, rfl⟩
  · cases h

/-- The execute phase never ends in a fault outcome. -/
theorem executePhase_ne_fault {c : Config} {w : Word} {b : Behaviour} {s : State} {f : Fault} :
    executePhase c w b s ≠ .fault f := by
  unfold executePhase
  split <;> simp

/-- In a run state in which STEP is defined, the sequencer is the fetch and what follows it. -/
theorem sequence_steppable {c : Config} {s : State} {rest} (h : s.steppable) :
    sequence c s rest =
      match fetch c s s.pc with
      | .error f => .next (takeFault s f none)
      | .ok w => rest w := by
  unfold sequence
  rcases h with h | h | h | h <;> simp only [h] <;> rfl

/-- The sequencer in the two other run states (R184). -/
theorem sequence_loaded {c : Config} {s : State} {rest} (h : s.rs = .loaded) :
    sequence c s rest = .refused .stepInLoaded := by
  unfold sequence; simp only [h]

theorem sequence_faulted {c : Config} {s : State} {rest} (h : s.rs = .faulted) :
    sequence c s rest = .next s := by
  unfold sequence; simp only [h]

/-- Every run state is one of those three kinds. -/
theorem State.rs_cases (s : State) : s.rs = .loaded ∨ s.rs = .faulted ∨ s.steppable := by
  unfold State.steppable
  cases s.rs <;> simp

/-- Everything a STEP of an engine that gives a next state can have done. -/
theorem Engine.step_next {e : Engine} {s t : State} (h : e.step s = .next t) :
    (s.rs = .faulted ∧ t = s) ∨
    (s.steppable ∧ fetch e.config s s.pc = .error (.boundsError s.pc) ∧
      t = takeFault s (.boundsError s.pc) none) ∨
    (s.steppable ∧ ∃ w d, fetch e.config s s.pc = .ok w ∧ dispatch e.catalog w = .error d ∧
      t = takeFault s (Fault.ofDecode d) (some w)) ∨
    (s.steppable ∧ ∃ w op, fetch e.config s s.pc = .ok w ∧ dispatch e.catalog w = .ok op ∧
      ((∃ u, (op.execute (decodeOperands op w)).run e.config (advance s) = .next u ∧ t = u.complete) ∨
        (∃ f, (op.execute (decodeOperands op w)).run e.config (advance s) = .fault f ∧
          t = takeFault s f (some w)))) := by
  unfold Engine.step at h
  rcases s.rs_cases with hr | hr | hr
  · rw [sequence_loaded hr] at h; cases h
  · rw [sequence_faulted hr] at h; cases h; exact .inl ⟨hr, rfl⟩
  · rw [sequence_steppable hr] at h
    split at h
    · rename_i f hf
      cases fetch_error hf
      cases h
      exact .inr (.inl ⟨hr, hf, rfl⟩)
    · rename_i w hw
      unfold dispatchPhase at h
      split at h
      · rename_i d hd
        cases h
        exact .inr (.inr (.inl ⟨hr, w, d, hw, hd, rfl⟩))
      · rename_i op hop
        exact .inr (.inr (.inr ⟨hr, w, op, hw, hop, executePhase_next h⟩))

end Sys2Proof.Machine
end

