-- ==== Sys2Proof/Laws/Decode.lean ====
section
/-! SUPPORT. Laws of the decoder's parts: the fixed masks of the rows, the bits an encoded field can set,
what dispatch answers (Decode.lean). -/

namespace Sys2Proof

/-! ## The fixed masks of the rows (column "mask" of R86) -/

theorem fixed_opNop : opNop.fixed = 0xffff := by decide
theorem fixed_opRet : opRet.fixed = 0xffff := by decide
theorem fixed_opJp : opJp.fixed = 0xf000 := by decide
theorem fixed_opCall : opCall.fixed = 0xf000 := by decide
theorem fixed_opSe : opSe.fixed = 0xf000 := by decide
theorem fixed_opAdd : opAdd.fixed = 0xf00f := by decide

/-! ## The alignment of the fields of RC6 -/

theorem ctz_nnn : ctz fieldNnn.mask = 0 := by decide
theorem ctz_x : ctz fieldX.mask = 8 := by decide
theorem ctz_y : ctz fieldY.mask = 4 := by decide
theorem ctz_kk : ctz fieldKk.mask = 0 := by decide

/-! ## Fields as bits -/

/-- A field of `k` bits placed at bit `j` sets no bit outside `j` to `j + k - 1`. -/
theorem field_and_eq_zero {n k j : Nat} (h : n < 2 ^ k) {m : Word}
    (hm : ∀ i < 16, j ≤ i → i < j + k → m.getLsbD i = false) :
    (BitVec.ofNat 16 n <<< j) &&& m = 0 := by
  apply BitVec.eq_of_getLsbD_eq
  intro i hi
  simp only [BitVec.getLsbD_and, BitVec.getLsbD_shiftLeft, BitVec.getLsbD_ofNat]
  by_cases hj : i < j
  · simp [hj]
  · by_cases hk : i < j + k
    · simp [hm i hi (by omega) hk]
    · have : n.testBit (i - j) = false :=
        Nat.testBit_lt_two_pow (lt_of_lt_of_le h (Nat.pow_le_pow_right (by norm_num) (by omega)))
      simp [this]

/-- The same for a field at bit 0. -/
theorem field_and_eq_zero' {n k : Nat} (h : n < 2 ^ k) {m : Word}
    (hm : ∀ i < 16, i < k → m.getLsbD i = false) : BitVec.ofNat 16 n &&& m = 0 := by
  have := field_and_eq_zero (j := 0) h (m := m) (by intro i hi _ hk; exact hm i hi (by omega))
  simpa using this

/-- A mask over a word put together from parts is the mask over each part. -/
theorem or_and_distrib (a b m : Word) : (a ||| b) &&& m = (a &&& m) ||| (b &&& m) := by
  apply BitVec.eq_of_getLsbD_eq
  intro i _
  simp [Bool.and_or_distrib_right]

/-! ## Masks as arithmetic -/

/-- A mask that is one run of `len` bits from bit `lo` on. -/
theorem testBit_run (len lo i : Nat) : ((2 ^ len - 1) * 2 ^ lo).testBit i = (decide (lo ≤ i) && decide (i < lo + len)) := by
  rw [Nat.testBit_mul_two_pow, Nat.testBit_two_pow_sub_one]
  by_cases h : lo ≤ i
  · simp [h]; omega
  · simp [h]

/-- Masking with a run, in numbers. -/
theorem nat_and_run (n lo len : Nat) : n &&& ((2 ^ len - 1) * 2 ^ lo) = n / 2 ^ lo % 2 ^ len * 2 ^ lo := by
  apply Nat.eq_of_testBit_eq
  intro i
  rw [Nat.testBit_and, testBit_run, Nat.testBit_mul_two_pow, Nat.testBit_mod_two_pow, Nat.testBit_div_two_pow]
  by_cases h : lo ≤ i
  · by_cases h2 : i < lo + len
    · have : i - lo < len := by omega
      simp [h, h2, this]
    · have : ¬ i - lo < len := by omega
      simp [h, h2, this]
  · simp [h]

/-- The same for words. -/
theorem toNat_and_run (w : Word) {lo len : Nat} (h : lo + len ≤ 16) :
    (w &&& BitVec.ofNat 16 ((2 ^ len - 1) * 2 ^ lo)).toNat = w.toNat / 2 ^ lo % 2 ^ len * 2 ^ lo := by
  have hlt : (2 ^ len - 1) * 2 ^ lo < 2 ^ 16 := by
    calc (2 ^ len - 1) * 2 ^ lo < 2 ^ len * 2 ^ lo := by
          apply Nat.mul_lt_mul_of_pos_right _ (by positivity)
          have : 0 < 2 ^ len := by positivity
          omega
      _ = 2 ^ (len + lo) := by rw [pow_add]
      _ ≤ 2 ^ 16 := Nat.pow_le_pow_right (by norm_num) (by omega)
  rw [BitVec.toNat_and, BitVec.toNat_ofNat, Nat.mod_eq_of_lt hlt, nat_and_run]

/-- The alignment of a run. -/
theorem ctz_run : ∀ lo < 16, ∀ len ≤ 16, 0 < len → lo + len ≤ 16 →
    ctz (BitVec.ofNat 16 ((2 ^ len - 1) * 2 ^ lo)) = lo := by decide

/-- A word's first digit against a pattern (fixed mask 0xf000). -/
theorem high_digit (w p : Word) : (w &&& 0xf000 == p) = decide (w.toNat / 4096 * 4096 = p.toNat) := by
  have h := toNat_and_run w (lo := 12) (len := 4) (by norm_num)
  have hw := w.isLt
  rw [Bool.eq_iff_iff]
  simp only [beq_iff_eq, decide_eq_true_eq, ← BitVec.toNat_inj]
  rw [show (0xf000 : Word) = BitVec.ofNat 16 ((2 ^ 4 - 1) * 2 ^ 12) from rfl, h]
  have : w.toNat / 2 ^ 12 % 2 ^ 4 = w.toNat / 4096 := by omega
  rw [this]
  norm_num

/-- A word's first and last digits against a pattern (fixed mask 0xf00f). -/
theorem outer_digits (w p : Word) : (w &&& 0xf00f == p) = decide (w.toNat / 4096 * 4096 + w.toNat % 16 = p.toNat) := by
  have h := toNat_and_run w (lo := 12) (len := 4) (by norm_num)
  have h0 := toNat_and_run w (lo := 0) (len := 4) (by norm_num)
  have hw := w.isLt
  have hor : w &&& 0xf00f = (w &&& 0xf000) + (w &&& 0x000f) := by
    rw [BitVec.add_eq_or_of_and_eq_zero]
    · apply BitVec.eq_of_getLsbD_eq; intro i hi
      interval_cases i <;> simp
    · apply BitVec.eq_of_getLsbD_eq; intro i hi
      interval_cases i <;> simp
  rw [Bool.eq_iff_iff]
  simp only [beq_iff_eq, decide_eq_true_eq, ← BitVec.toNat_inj]
  rw [hor, BitVec.toNat_add]
  rw [show (0xf000 : Word) = BitVec.ofNat 16 ((2 ^ 4 - 1) * 2 ^ 12) from rfl, h, show (0x000f : Word) = BitVec.ofNat 16 ((2 ^ 4 - 1) * 2 ^ 0) from rfl, h0]
  have : w.toNat / 2 ^ 12 % 2 ^ 4 = w.toNat / 4096 := by omega
  rw [this]
  have : (w.toNat / 4096 * 2 ^ 12 + w.toNat / 2 ^ 0 % 2 ^ 4 * 2 ^ 0) % 2^16 =  (w.toNat / 4096 * 2 ^ 12 + w.toNat % 16 ) := by omega
  rw [this]
  norm_num


/-- A whole word against a pattern (fixed mask 0xffff). -/
theorem all_digits (w p : Word) : (w &&& 0xffff == p) = decide (w.toNat = p.toNat) := by
  have : w &&& 0xffff = w := BitVec.and_allOnes
  rw [this, Bool.eq_iff_iff]; simp [← BitVec.toNat_inj]

theorem matches_nop (w : Word) : opNop.matchesWord w = decide (w.toNat = 0) := by
  rw [Op.matchesWord, fixed_opNop, all_digits]; rfl
theorem matches_ret (w : Word) : opRet.matchesWord w = decide (w.toNat = 0xee) := by
  rw [Op.matchesWord, fixed_opRet, all_digits]; rfl
theorem matches_jp (w : Word) : opJp.matchesWord w = decide (w.toNat / 4096 = 1) := by
  rw [Op.matchesWord, fixed_opJp, high_digit]; congr 1; simp [opJp]; try omega
theorem matches_call (w : Word) : opCall.matchesWord w = decide (w.toNat / 4096 = 2) := by
  rw [Op.matchesWord, fixed_opCall, high_digit]; congr 1; simp [opCall]; omega
theorem matches_se (w : Word) : opSe.matchesWord w = decide (w.toNat / 4096 = 3) := by
  rw [Op.matchesWord, fixed_opSe, high_digit]; congr 1; simp [opSe]; omega
theorem matches_add (w : Word) : opAdd.matchesWord w = decide (w.toNat / 4096 = 8 ∧ w.toNat % 16 = 4) := by
  rw [Op.matchesWord, fixed_opAdd, outer_digits]; congr 1; simp [opAdd]; omega


/-! ## Dispatch -/

/-- Dispatch by the list of the Ops that match. -/
theorem dispatch_eq {β : Type} (catalog : List (Op β)) (w : Word) :
    dispatch catalog w =
      match catalog.filter fun op => op.matchesWord w with
      | [op] => .ok op
      | [] => .error (.unknownOpcode w)
      | _ :: _ :: _ => .error (.ambiguousOpcode w) := rfl

/-- A failure of dispatch carries the word. -/
theorem dispatch_error {β : Type} {catalog : List (Op β)} {w : Word} {d : DecodeError}
    (h : dispatch catalog w = .error d) : d = .unknownOpcode w ∨ d = .ambiguousOpcode w := by
  rw [dispatch_eq] at h
  split at h <;> cases h
  · exact .inl rfl
  · exact .inr rfl

/-- The Op dispatch answers is one of the catalog and matches. -/
theorem dispatch_ok {β : Type} {catalog : List (Op β)} {w : Word} {op : Op β}
    (h : dispatch catalog w = .ok op) : op ∈ catalog ∧ op.matchesWord w = true := by
  rw [dispatch_eq] at h
  split at h
  · rename_i o ho
    cases h
    have : op ∈ catalog.filter fun op => op.matchesWord w := by rw [ho]; simp
    simpa using this
  · cases h
  · cases h

/-- Reading the behaviours of a catalog another way does not change which Op is selected. -/
theorem dispatch_map {β γ : Type} (f : β → γ) (catalog : List (Op β)) (w : Word) :
    dispatch (catalog.map (Op.map f)) w = (dispatch catalog w).map (Op.map f) := by
  have hf : (catalog.map (Op.map f)).filter (fun op => op.matchesWord w) =
      (catalog.filter fun op => op.matchesWord w).map (Op.map f) := by
    rw [List.filter_map]; rfl
  rw [dispatch_eq, dispatch_eq, hf]
  cases catalog.filter fun op => op.matchesWord w with
  | nil => rfl
  | cons a l => cases l <;> rfl

end Sys2Proof
end

