-- ==== Sys2Proof/Laws/PerInstr.lean ====
section
/-! SUPPORT. A statement for every instruction as syntax: the word an encoder writes for a well-formed
instruction selects that instruction's own row of the table (R86, R133). -/

namespace Sys2Proof.Laws.EncodeSelectsRow

/-- The encoding of a well-formed instruction matches its row. -/
def Statement (i : Instr) : Prop := i.wf = true → i.row.matchesWord (encode i) = true

theorem nop : Statement .nop := by intro _; decide

theorem ret : Statement .ret := by intro _; decide

theorem jp (nnn : Nat) : Statement (.jp nnn) := by
  intro h
  simp only [Instr.wf, decide_eq_true_eq] at h
  have h0 := field_and_eq_zero' (n := nnn) (k := 12) h (m := 0xf000) (by decide)
  simp only [Op.matchesWord, Instr.row, fixed_opJp, encode, or_and_distrib, h0]
  decide

theorem call (nnn : Nat) : Statement (.call nnn) := by
  intro h
  simp only [Instr.wf, decide_eq_true_eq] at h
  have h0 := field_and_eq_zero' (n := nnn) (k := 12) h (m := 0xf000) (by decide)
  simp only [Op.matchesWord, Instr.row, fixed_opCall, encode, or_and_distrib, h0]
  decide

theorem se (x kk : Nat) : Statement (.se x kk) := by
  intro h
  simp only [Instr.wf, Bool.and_eq_true, decide_eq_true_eq] at h
  have h0 := field_and_eq_zero (n := x) (k := 4) (j := 8) h.1 (m := 0xf000) (by decide)
  have h1 := field_and_eq_zero' (n := kk) (k := 8) h.2 (m := 0xf000) (by decide)
  simp only [Op.matchesWord, Instr.row, fixed_opSe, encode, or_and_distrib, h0, h1]
  decide

theorem add (x y : Nat) : Statement (.add x y) := by
  intro h
  simp only [Instr.wf, Bool.and_eq_true, decide_eq_true_eq] at h
  have h0 := field_and_eq_zero (n := x) (k := 4) (j := 8) h.1 (m := 0xf00f) (by decide)
  have h1 := field_and_eq_zero (n := y) (k := 4) (j := 4) h.2 (m := 0xf00f) (by decide)
  simp only [Op.matchesWord, Instr.row, fixed_opAdd, encode, or_and_distrib, h0, h1]
  decide

end Sys2Proof.Laws.EncodeSelectsRow
end

