-- ==== Sys2Proof/Tests/Slice0.lean ====
section
/-! SUPPORT. Tests, with expected values from spec/95_test_vectors.md (the vector is named in the comment),
and for each statement with hypotheses a witness that meets them, at the boundary values of its
clauses. -/

namespace Sys2Proof.Tests

open Sys2Proof Sys2Proof.Machine

/-! ## Decoding: one word or more of each format, written bit by bit -/

/-- Format Z (R85, R86; M1, M2). -/
theorem test_words_z :
    decode 0b0000_0000_0000_0000#16 = .ok .nop ∧ decode 0b0000_0000_1110_1110#16 = .ok .ret := by decide

/-- Format A (M7, M8). -/
theorem test_words_a :
    decode 0b0001_1111_1111_1111#16 = .ok (.jp 0xfff) ∧
    decode 0b0010_0010_0000_0100#16 = .ok (.call 0x204) := by decide

/-- Format RK (M9, M10). -/
theorem test_words_rk :
    decode 0b0011_1010_0001_0000#16 = .ok (.se 0xa 0x10) ∧
    decode 0b0011_1111_1111_1111#16 = .ok (.se 0xf 0xff) := by decide

/-- Format RR (E8, E9, M13). -/
theorem test_words_rr :
    decode 0b1000_1010_1011_0100#16 = .ok (.add 0xa 0xb) ∧
    decode 0b1000_1111_1111_0100#16 = .ok (.add 0xf 0xf) := by decide

/-- Illegal words (M3, M4, M5, M11, M14, M15, M16). -/
theorem test_illegal_words :
    ([0x00e0, 0x0001, 0x0fff, 0x4000, 0x8010, 0x8005, 0xffff].all fun w =>
      decide (decode w = .error (.unknownOpcode w))) = true := by decide

/-- The encodings of the same words (R89). -/
theorem test_encode :
    encode .ret = 0x00ee ∧ encode (.jp 0x204) = 0x1204 ∧ encode (.call 0x204) = 0x2204 ∧
    encode (.se 0xa 0x10) = 0x3a10 ∧ encode (.add 0xa 0xb) = 0x8ab4 := by decide

/-- The first byte of an instruction in memory is the high byte (R52). -/
theorem test_bytes : decodeBytes 0x3a 0x10 = .ok (.se 0xa 0x10) := by decide

/-- E1, E11, E12, E14, E15. -/
theorem test_extract :
    extract 0x3a10 0x0f00 = 0xa ∧ extract 0xabcd 0xffff = 0xabcd ∧ extract 0xabcd 0x8000 = 1 ∧
    extract 0xabcd 0x0ff0 = 0xbc ∧ extract 0xabcd 0x0180 = 3 := by decide

/-! ## Well-formedness -/

/-- Operands that do not fit their fields are refused (R85). -/
theorem test_wf_refuses :
    Instr.wf (.jp 0x1000) = false ∧ Instr.wf (.call 0x1000) = false ∧ Instr.wf (.se 16 0) = false ∧
    Instr.wf (.se 0 256) = false ∧ Instr.wf (.add 16 0) = false ∧ Instr.wf (.add 0 16) = false := by
  decide

/-- An Op of nothing but a pattern and operand masks, all constants. -/
def bareOp (pattern : Word) (masks : List Word) : Op Behaviour :=
  ⟨"TEST", pattern, masks.map fun m => ⟨m, .constant⟩, fun _ => .done⟩

/-- Section 2.4: four operands, masks that share a bit, a pattern bit inside an operand. -/
theorem test_op_wf_refuses :
    opWellFormed (bareOp 0 [0x1, 0x2, 0x4, 0x8]) = false ∧
    opWellFormed (bareOp 0 [0x0ff0, 0x00ff]) = false ∧
    opWellFormed (bareOp 0x1004 [0x0fff]) = false ∧
    opWellFormed (bareOp 0x1000 [0x0fff]) = true := by decide

/-- V34, V35, V36 overlap; V30 does not. -/
theorem test_overlap :
    opsOverlap (bareOp 0x0000 [0x0fff]) (bareOp 0x00ee []) = true ∧
    opsOverlap (bareOp 0x8000 [0x0f00, 0x00f0, 0x000f]) (bareOp 0x8004 [0x0f00, 0x00f0]) = true ∧
    opsOverlap opJp opJp = true ∧ opsOverlap opJp opCall = false := by decide

/-- RC6 is valid with 16 registers and not with 8 (section 2.4). -/
theorem test_catalog_validity :
    (Engine.rc6 (Config.reference .image)).valid = true ∧
    (Engine.rc6 { Config.reference .image with nreg := 8 }).valid = false := by decide

/-! ## The arithmetic block -/

/-- A6, A8, A13, A11. -/
theorem test_cast :
    castTo (-1) 8 = 0xff ∧ castTo (-257) 8 = 0xff ∧ castTo (-32768) 16 = 0x8000 ∧
    castTo 0x12345 16 = 0x2345 := by decide

/-- A33, A34, A36, A42, A57, A58, A63. -/
theorem test_add_sub :
    addWrap 0xff 0xff 8 = (0xfe, .overflow) ∧ addWrap 0x7f 1 8 = (0x80, .ok) ∧
    addWrap (-1) 1 8 = (0, .ok) ∧ addWrap 0xffff 2 16 = (1, .overflow) ∧
    subWrap 0x100 1 8 = (0xff, .ok) ∧ subWrap 0x200 0x100 8 = (0, .overflow) ∧
    subWrap 1 2 16 = (0xffff, .overflow) := by decide

/-! ## States to test on -/

/-- The bytes of an image given as words (R62). -/
def imageOf (words : List Word) : List Byte := words.flatMap fun w => [firstByte w, secondByte w]

/-- Boot (R283): construct, LOAD, RESET, for a unit with these parameters. -/
def bootOf (c : Config) (words : List Word) : State :=
  resetUnit c (loadImage c (imageOf words) (State.constructed c))

/-- Boot of the unit. -/
def boot (words : List Word) : State := bootOf Config.unit words

/-- A boot of the unit with other registers 0, 1 and 15. -/
def bootWith (words : List Word) (v0 v1 vf : Byte) : State :=
  { boot words with regs := [v0, v1, 0, 0, 0, 0, 0, 0, 0, 0, 0, 0, 0, 0, 0, vf] }

/-- The state an outcome leaves, if it is a next state. -/
def after (o : Host.Outcome State Fault Refusal) : Option State :=
  match o with
  | .next t => some t
  | _ => none

/-- Sixteen entries: a full call stack of the unit. -/
def fullStack : List Int := List.replicate 16 0x202

/-! ## One step of each instruction -/

/-- I1 and S1. -/
theorem test_nop :
    (after (step (boot [0x0000]))).map (fun t => (t.pc, t.regs, t.stack, t.rs)) =
      some (0x202, List.replicate 16 0, [], .running) := by decide

/-- I2 and S2, I4. -/
theorem test_jp :
    (after (step (boot [0x1204, 0, 0]))).map (·.pc) = some 0x204 ∧
    (after (step (boot [0x1203]))).map (·.pc) = some 0x203 := by decide

/-- I5 and S3, with the stack top of 90_conflicts.md C1; I6. -/
theorem test_call :
    (after (step (boot [0x2204, 0, 0]))).map (fun t => (t.pc, t.stack)) = some (0x204, [0x202]) ∧
    (after (step { boot [0x2300] with stack := [0x202] })).map (fun t => (t.pc, t.stack)) =
      some (0x300, [0x202, 0x202]) := by decide

/-- I7. -/
theorem test_call_full :
    (after (step { boot [0x2204] with stack := fullStack })).map
      (fun t => (t.pc, t.stack, t.rs, t.fr)) =
      some (0x200, fullStack, .faulted, some ⟨.stackOverflow, 0x200, some 0x2204, .value 0x202⟩) := by
  decide

/-- I9, at 0x200. -/
theorem test_ret :
    (after (step { boot [0x00ee] with stack := [0x202, 0x2f2] })).map (fun t => (t.pc, t.stack)) =
      some (0x2f2, [0x202]) := by decide

/-- I10. -/
theorem test_ret_empty :
    (after (step (boot [0x00ee]))).map (fun t => (t.pc, t.rs, t.fr)) =
      some (0x200, .faulted, some ⟨.stackUnderflow, 0x200, some 0x00ee, .nothing⟩) := by decide

/-- I11 and I12 (S4). -/
theorem test_se :
    (after (step (bootWith [0x30aa] 0xaa 0 0))).map (·.pc) = some 0x204 ∧
    (after (step (bootWith [0x30aa] 0xab 0 0))).map (·.pc) = some 0x202 := by decide

/-- I14: SE of the flag register. -/
theorem test_se_flag : (after (step (bootWith [0x3f01] 0 0 1))).map (·.pc) = some 0x204 := by decide

/-- I15 and I16 (S5), I23: sum and carry. -/
theorem test_add_carry :
    (after (step (bootWith [0x8014] 0x0a 1 1))).map (fun t => (t.regs[0]?, t.regs[15]?)) =
      some (some 0x0b, some 0) ∧
    (after (step (bootWith [0x8014] 0xff 0x01 0))).map (fun t => (t.regs[0]?, t.regs[15]?)) =
      some (some 0, some 1) ∧
    (after (step (bootWith [0x8014] 0xff 0xff 0))).map (fun t => (t.regs[0]?, t.regs[15]?)) =
      some (some 0xfe, some 1) := by decide

/-- I19, I20, I21, I22: FLAG as destination, as source, as both. -/
theorem test_add_flag_register :
    (after (step (bootWith [0x8f14] 0 1 1))).map (·.regs[15]?) = some (some 0) ∧
    (after (step (bootWith [0x8f14] 0 1 0xff))).map (·.regs[15]?) = some (some 1) ∧
    (after (step (bootWith [0x80f4] 0x10 0 1))).map (fun t => (t.regs[0]?, t.regs[15]?)) =
      some (some 0x11, some 0) ∧
    (after (step (bootWith [0x8ff4] 0 0 0x80))).map (·.regs[15]?) = some (some 1) := by decide

/-! ## Faults -/

/-- F1. -/
theorem test_step_unloaded :
    after (step State.reset) = some { State.reset with
      rs := .faulted, fr := some ⟨.boundsError, 0x200, none, .address 0x200⟩ } := by decide

/-- F2. -/
theorem test_step_illegal :
    after (step (boot [0xffff])) = some { boot [0xffff] with
      rs := .faulted, fr := some ⟨.unknownOpcode, 0x200, some 0xffff, .word 0xffff⟩ } := by decide

/-- F7, its second step, under both values of FETCH_BOUND. -/
theorem test_fetch_bound :
    let second := fun b =>
      after ((Engine.rc6 (Config.reference b)).step { bootOf (Config.reference b) [0] with pc := 0x202 })
    (second .image).map (fun t => (t.pc, t.fr)) =
      some (0x202, some ⟨.boundsError, 0x202, none, .address 0x202⟩) ∧
    (second .memory).map (fun t => (t.pc, t.fr)) = some (0x204, none) := by decide

/-- F10, an image of no bytes at its ENTRY under both bounds; and R197 below the load offset: under IMAGE
every fetch faults. -/
theorem test_empty_image :
    let stepAt := fun b pc =>
      after ((Engine.rc6 (Config.reference b)).step { bootOf (Config.reference b) [] with pc := pc })
    (stepAt .image 0x200).map (fun t => (t.pc, t.fr)) =
      some (0x200, some ⟨.boundsError, 0x200, none, .address 0x200⟩) ∧
    (stepAt .memory 0x200).map (fun t => (t.pc, t.fr)) = some (0x202, none) ∧
    (stepAt .image 0x100).map (fun t => (t.pc, t.fr)) =
      some (0x100, some ⟨.boundsError, 0x100, none, .address 0x100⟩) ∧
    (stepAt .memory 0x100).map (fun t => (t.pc, t.fr)) = some (0x102, none) := by decide

/-- F5, its second step: the last byte of memory, in the unit. -/
theorem test_fetch_past_memory :
    (after (step { boot [0x1fff] with pc := 0xfff })).map (fun t => (t.pc, t.fr)) =
      some (0xfff, some ⟨.boundsError, 0xfff, none, .address 0xfff⟩) := by decide

/-- F11: the two Ops of V34, admitted without validation. -/
theorem test_ambiguous :
    (match dispatch [bareOp 0x0000 [0x0fff], bareOp 0x00ee []] 0x00ee with
      | .error e => some e
      | .ok _ => none) = some (.ambiguousOpcode 0x00ee) := by decide

/-- An Op that stores a byte and then faults, for which RC6 has no case: the byte is not stored (R165). -/
def storeThenPop : Op Behaviour := ⟨"STP", 0x0000, [], fun _ => .memWrite 0x300 0xab (.pop fun _ => .done)⟩

/-- R165, R183: a fault undoes the writes of its own step. -/
theorem test_fault_undoes_writes :
    after ((Engine.mk (Config.reference .image) [storeThenPop]).step (boot [0])) = some { boot [0] with
      rs := .faulted, fr := some ⟨.stackUnderflow, 0x200, some 0, .nothing⟩ } := by decide

/-! ## Primitives -/

/-- T1, T2 and T16: casts on the way into a cell. -/
theorem test_cell_casts :
    byteOfInt 0x1ff = 0xff ∧ byteOfInt (-1) = 0xff ∧ byteOfInt 0x1ab = 0xab := by decide

/-- T17, T18. -/
theorem test_data_bounds :
    memRead Config.unit (boot []) 4096 = .error (.boundsError 4096) ∧
    memRead Config.unit (boot []) (-1) = .error (.boundsError (-1)) ∧
    memRead Config.unit (State.setByte (boot []) 0xfff 0x5a) 0xfff = .ok 0x5a ∧
    memReadPair Config.unit (State.setByte (boot []) 0xfff 0x5a) 0xfff =
      .error (.boundsError 0x1000) := by decide

/-- T10, T12, T13, T14, from the pc a behaviour reads. -/
theorem test_hops :
    (hop { boot [] with pc := 0x202 } 1).pc = 0x204 ∧ (hop { boot [] with pc := 0x202 } (-1)).pc = 0x200 ∧
    (hop { boot [] with pc := 2 } (-2)).pc = -2 ∧
    (hopBackwards { boot [] with pc := 0x202 } 1).pc = 0x200 := by decide

/-- T6, T7, T8, T9. -/
theorem test_stack :
    pop { boot [] with stack := [0x202, 0x20a] } = .ok (0x20a, { boot [] with stack := [0x202] }) ∧
    pop (boot []) = .error .stackUnderflow ∧ top (boot []) = none ∧
    top { boot [] with stack := [0x202, 0x20a] } = some 0x20a ∧
    inspect { boot [] with stack := [0x202, 0x20a] } = [0x202, 0x20a] := by decide

/-- A store keeps the memory canonical, and storing 0 takes the entry away. -/
theorem test_memory_form :
    Memory.write [(1, 5), (9, 7)] 4 3 = [(1, 5), (4, 3), (9, 7)] ∧
    Memory.write [(1, 5), (9, 7)] 9 0 = [(1, 5)] ∧ Memory.write [] 3 0 = [] ∧
    Memory.wf [(1, 5), (4, 3)] = true ∧ Memory.wf [(4, 3), (1, 5)] = false ∧
    Memory.wf [(1, 0)] = false := by decide

/-! ## Host commands -/

/-- What a command leaves and replies, if it is accepted. -/
def commanded (cmd : Command) (s : State) : Option (State × Reply) :=
  match (Engine.rc6 Config.unit).command cmd s with
  | .next p => some p
  | _ => none

/-- What a command is refused for, if it is refused. -/
def refusal (cmd : Command) (s : State) : Option Refusal :=
  match (Engine.rc6 Config.unit).command cmd s with
  | .refused r => some r
  | _ => none

/-- H1, H2. -/
theorem test_load :
    (commanded (.load (.image [0x12, 0x04, 0, 0, 0, 0])) State.reset).map
      (fun p => (p.1.mem, p.1.plen, p.1.loaded, p.1.rs, p.1.pc)) =
      some ([(0x200, 0x12), (0x201, 0x04)], 6, true, .loaded, 0x200) ∧
    refusal .step { State.reset with loaded := true, plen := 6, rs := .loaded } = some .stepInLoaded := by
  decide

/-- H4 and H5: LoaderError; STOP, STOP, and the STEP that resumes. -/
theorem test_stop_and_loader_error :
    let s : State := { boot [0x1204, 0, 0] with pc := 0x204, rs := .running }
    commanded (.load .noLoader) s = some (s, .failed .loaderError) ∧
    commanded .stop s = some ({ s with rs := .halted }, .done) ∧
    commanded .stop { s with rs := .halted } = some ({ s with rs := .halted }, .done) ∧
    commanded .step { s with rs := .halted } = some ({ s with pc := 0x206 }, .done) := by decide

/-- H6, H12. -/
theorem test_reset :
    (commanded .reset { bootWith [0x2204] 1 2 3 with pc := 0x204, stack := [0x202] }) =
      some (boot [0x2204], .done) ∧
    commanded .reset State.reset = some (State.reset, .done) := by decide

/-- A snapshot of the unit with the wrong tags or no shape. -/
def badSnapshot (id : String) (version : Int) : Snapshot := ⟨id, version, [], [], [], 0⟩

/-- H8, and U5. -/
theorem test_restore_refused :
    commanded (.restore (badSnapshot "OTHER" 1)) (boot [0]) =
      some (boot [0], .failed .snapshotMismatch) ∧
    commanded (.restore (badSnapshot "RC6" 2)) (boot [0]) = some (boot [0], .failed .snapshotMismatch) ∧
    refusal (.restore (badSnapshot "RC6" 1)) (boot [0]) = some .malformedSnapshot := by decide

/-- H10 with three steps. -/
theorem test_run :
    commanded (.run 3) (boot [0x1200]) = some ({ boot [0x1200] with rs := .running }, .done) := by decide

/-! ## The host's interface -/

/-- The host's numbering: NOP and CALL, decoded and placed. -/
theorem test_table_words :
    decodeTableWord 16 0x0000 = some .nop ∧ decodeTableWord 16 0x2204 = some (.call 0x204) ∧
    decodeTableWord 16 0x4000 = none ∧
    (after (step (State.reset.withFetchWord 16 0x2204))).map (fun t => (t.pc, t.stack)) =
      some (0x204, [0x202]) := by decide

/-! ## Witnesses: states and operands that meet the hypotheses of each statement -/

/-- An outcome that `after` reads as a next state is that next state. -/
theorem next_of_after {o : Host.Outcome State Fault Refusal} {t : State} (h : after o = some t) :
    o = .next t := by
  unfold after at h
  split at h <;> simp_all

/-- A program that calls over a NOP, after boot: the state of S3. -/
def callState : State := boot [0x2204, 0, 0]

/-- What `callState` becomes in one step. -/
def calledState : State := { callState with pc := 0x204, stack := [0x202], rs := .running }

/-- A unit with a fault latched: F2 after its step. -/
def faultedState : State :=
  { boot [0xffff] with rs := .faulted, fr := some ⟨.unknownOpcode, 0x200, some 0xffff, .word 0xffff⟩ }

theorem callState_inv : callState.Inv Config.unit where
  regs_length := by decide
  mem_wf := by decide
  mem_below := by decide
  stack_length := by decide
  plen_zero := by decide
  image_fits := by decide
  fr_none_iff := by decide
  unloaded_imp := by decide
  loaded_imp := by decide
  fpc_eq := fun _ h => nomatch h

theorem callState_pcBounded : callState.PcBounded Config.unit where
  pc_nonneg := by decide
  pc_le := by decide
  entries := by decide

theorem callState_step : step callState = .next calledState := next_of_after (by decide)

theorem witness_DecodeOfEncodeIsTheInstruction :
    Instr.wf .nop = true ∧ Instr.wf .ret = true ∧ Instr.wf (.jp 0) = true ∧ Instr.wf (.jp 0xfff) = true ∧
    Instr.wf (.call 0xfff) = true ∧ Instr.wf (.se 0 0) = true ∧ Instr.wf (.se 15 255) = true ∧
    Instr.wf (.add 0 0) = true ∧ Instr.wf (.add 15 15) = true := by decide

theorem witness_EncodeOfDecodeIsTheWord :
    decode 0x00ee = .ok .ret ∧ decode 0x8ff4 = .ok (.add 15 15) := by decide

theorem witness_ExtractGivesTheFieldRightAligned :
    (0 < 16 ∧ 0 + 16 ≤ 16) ∧ (0 < 1 ∧ 15 + 1 ≤ 16) ∧ (0 < 4 ∧ 8 + 4 ≤ 16) := by decide

/-- A mask whose lowest set bit is the top one, the bottom one, and E19's with a gap. -/
theorem witness_ZeroAndGappedMasksAreAppliedAsWritten :
    (0x8000 : Word) ≠ 0 ∧ (0x0001 : Word) ≠ 0 ∧ (0x0f0f : Word) ≠ 0 ∧ 14 < ctz 0x8000 := by decide

theorem witness_DispatchFindsTheOneMatchingOp : rc6.Perm rc6.reverse := (List.reverse_perm rc6).symm

theorem witness_OverlapExactlyWhenAWordMatchesBoth :
    opWellFormed (bareOp 0x8000 [0x0f00, 0x00f0, 0x000f]) = true ∧
    opWellFormed (bareOp 0x8004 [0x0f00, 0x00f0]) = true ∧ opWellFormed (bareOp 0x00ee []) = true := by
  decide

theorem witness_ValidCatalogIsNeverAmbiguous :
    validCatalog Config.unit (rc6Catalog Config.unit) = true := by decide

theorem witness_ConstructionGivesThePowerOnState :
    (Engine.rc6 { Config.unit with nreg := 15 }).valid = false ∧
    (Engine.rc6 { Config.unit with nreg := 0 }).valid = false ∧
    (Engine.rc6 Config.unit).valid = true := by decide

theorem witness_CastIsTheFlooredModulus :
    ((0 : Int) ≤ 0 ∧ (0 : Int) < 2 ^ 0) ∧ ((0 : Int) ≤ 255 ∧ (255 : Int) < 2 ^ 8) := by decide

theorem witness_RegisterWriteThenRead :
    callState.regs.length = Config.unit.nreg ∧
    ((0 : Int) ≤ 0 ∧ (0 : Int) ≤ (Config.unit.nreg : Int) - 1) ∧
    ((0 : Int) ≤ 15 ∧ (15 : Int) ≤ (Config.unit.nreg : Int) - 1) ∧
    (-1 : Int) < 0 ∧ (Config.unit.nreg : Int) - 1 < 16 := by decide

theorem witness_MemoryWriteThenRead :
    callState.mem.wf = true ∧ callState.mem.below Config.unit.memSize = true ∧
    ((0 : Int) ≤ 0 ∧ (0 : Int) ≤ (Config.unit.memSize : Int) - 1) ∧
    ((0 : Int) ≤ 4095 ∧ (4095 : Int) ≤ (Config.unit.memSize : Int) - 1) ∧
    (-1 : Int) < 0 ∧ (Config.unit.memSize : Int) - 1 < 4096 := by decide

theorem witness_DataReadsAreBoundedAndBigEndian :
    ((0 : Int) ≤ 4095 ∧ (4095 : Int) ≤ (Config.unit.memSize : Int) - 1) ∧
    (-1 : Int) < 0 ∧ (Config.unit.memSize : Int) - 1 < 4096 ∧
    ((0 : Int) ≤ 4094 ∧ (4094 : Int) + 1 ≤ (Config.unit.memSize : Int) - 1) ∧
    (0 : Int) ≤ 4095 ∧ (4095 : Int) = (Config.unit.memSize : Int) - 1 := by decide

/-- Under IMAGE the last fetch of a two-byte image is at 0x200, under MEMORY at 0xffe; and an image of
no bytes. -/
theorem witness_FetchReadsTheBigEndianWordWithinItsBounds :
    let s := bootOf (Config.reference .image) [0]
    (Config.reference .image).fetchBound = .image ∧ (Config.reference .memory).fetchBound = .memory ∧
    s.plen = 2 ∧ s.loaded = true ∧ State.reset.loaded = false ∧
    (bootOf (Config.reference .image) []).loaded = true ∧
    (bootOf (Config.reference .image) []).plen = 0 ∧
    (0x200 : Int) + 1 ≤ ((Config.reference .image).loadOffset : Int) + s.plen - 1 ∧
    ((Config.reference .image).loadOffset : Int) + s.plen - 1 < (0x201 : Int) + 1 ∧
    (0xffe : Int) + 1 ≤ ((Config.reference .memory).memSize : Int) - 1 ∧
    ((Config.reference .memory).memSize : Int) - 1 < (0xfff : Int) + 1 := by decide

/-- A store to the first and to the second byte of the instruction fetched next. -/
theorem witness_FetchSeesStores :
    let first := callState.setByte 0x200 0x12
    let second := callState.setByte 0x201 0x12
    callState.mem.wf = true ∧
    memWrite Config.unit callState 0x200 0x112 = .ok first ∧ fetch Config.unit first 0x200 = .ok 0x1204 ∧
    memWrite Config.unit callState 0x201 0x112 = .ok second ∧
    fetch Config.unit second 0x200 = .ok 0x2212 := by decide

theorem witness_CallStackIsABoundedLifo :
    fullStack.length = Config.unit.stackDepth ∧ callState.stack.length ≠ Config.unit.stackDepth ∧
    (fullStack.take 15).length ≠ Config.unit.stackDepth ∧
    calledState.stack = [] ++ [0x202] ∧ callState.stack = [] := by decide

theorem witness_BehaviourCannotWriteControlState :
    (addBehaviour Config.unit 15 0).run Config.unit callState = .next callState :=
  next_of_after (by decide)

/-- Two states that differ in control state only, on which a behaviour completes, faults, is refused. -/
theorem witness_BehaviourCannotObserveControlState :
    callState.sameContext { callState with loaded := false, plen := 9, rs := .halted } ∧
    nopBehaviour.run Config.unit callState = .next callState ∧
    (retBehaviour Config.unit).run Config.unit callState = .fault .stackUnderflow ∧
    (seBehaviour 16 0).run Config.unit callState = .refused (.registerOutOfRange 16) :=
  ⟨⟨rfl, rfl, rfl, rfl⟩, rfl, rfl, rfl⟩

theorem witness_CallPushesTheNextAddress :
    callState.stack.length ≠ Config.unit.stackDepth ∧
    ({ callState with stack := fullStack }).stack.length = Config.unit.stackDepth := by decide

theorem witness_RetJumpsToTheNewestEntry :
    calledState.stack = [] ++ [0x202] ∧ callState.stack = [] := by decide

theorem witness_SeSkipsExactlyWhenEqual :
    15 < 16 ∧ ((bootWith [0x3f01] 0 0 1).regs.getD 15 0).toNat = 1 ∧
    0 < 16 ∧ ((bootWith [0x30ff] 0xfe 0 1).regs.getD 0 0).toNat ≠ 0xff := by decide

theorem witness_AddWritesTheSumThenTheCarry : (0 < 16 ∧ 0 < 16) ∧ (15 < 16 ∧ 15 < 16) := by decide

theorem witness_AddLeavesOtherRegisters :
    (0 < 16 ∧ 15 < 16) ∧ (bootWith [0x80f4] 0xff 0 1).regs.length = 16 := by decide

theorem witness_MissingRegisterIsRefused : 16 ≤ 16 ∧ 15 < 16 := by decide

/-- A next state of every instruction, and one in which a fault is taken. -/
theorem witness_InstructionFrames :
    (after (exec .nop callState)).isSome = true ∧ (after (exec .ret calledState)).isSome = true ∧
    (after (exec (.jp 0xfff) callState)).isSome = true ∧
    exec (.call 0x204) callState = .next calledState ∧
    (after (exec (.se 15 255) callState)).isSome = true ∧
    (after (exec (.add 15 0) callState)).isSome = true ∧
    (after (exec .ret callState)).map (·.rs) = some .faulted :=
  ⟨by decide, by decide, by decide, next_of_after (by decide),
    by decide, by decide, by decide⟩

/-- With LINK_BIAS = 0 and with LINK_BIAS = -2, a RET elsewhere after the CALL. -/
theorem witness_ReturnUndoesItsCall :
    let biased : Config := { Config.unit with linkBias := -2 }
    executePhase Config.unit (encode (.call 0x204)) (callBehaviour Config.unit 0x204) callState =
      .next calledState ∧
    executePhase biased (encode (.call 0x204)) (callBehaviour biased 0x204) callState =
      .next { calledState with stack := [0x200] } ∧
    calledState.rs = .running ∧ ({ calledState with pc := 0x300 }).stack = calledState.stack :=
  ⟨next_of_after (by decide), next_of_after (by decide), rfl, rfl⟩

theorem witness_StepRunsTheDecodedInstruction :
    callState.steppable ∧ fetch Config.unit callState callState.pc = .ok 0x2204 ∧
    decode 0x2204 = .ok (.call 0x204) := ⟨.inr (.inl rfl), by decide, by decide⟩

theorem witness_StepLatchesFetchAndDecodeFaults :
    State.reset.steppable ∧ fetch Config.unit State.reset State.reset.pc = .error (.boundsError 0x200) ∧
    (boot [0xffff]).steppable ∧ fetch Config.unit (boot [0xffff]) (boot [0xffff]).pc = .ok 0xffff ∧
    decode 0xffff = .error (.unknownOpcode 0xffff) :=
  ⟨.inl rfl, by decide, .inr (.inl rfl), by decide, by decide⟩

/-- RC6 on an illegal word, and V34's two Ops on the word both match. -/
theorem witness_DecodeFaultsRecordTheRawWord :
    (boot [0xffff]).steppable ∧ fetch Config.unit (boot [0xffff]) (boot [0xffff]).pc = .ok 0xffff ∧
    (∀ op ∈ rc6Catalog Config.unit, op.matchesWord 0xffff = false) ∧
    (boot [0x00ee]).steppable ∧ fetch Config.unit (boot [0x00ee]) (boot [0x00ee]).pc = .ok 0x00ee ∧
    2 ≤ ([bareOp 0x0000 [0x0fff], bareOp 0x00ee []].filter fun op => op.matchesWord 0x00ee).length :=
  ⟨.inr (.inl rfl), by decide, by decide, .inr (.inl rfl), by decide,
    by decide⟩

/-- A fetch fault; a dispatch fault; the fault of a behaviour that has stored a byte before it. -/
theorem witness_RaisedFaultIsLatchedAndTheStepUndone :
    fetch Config.unit State.reset State.reset.pc = .error (.boundsError 0x200) ∧
    dispatch ([] : List (Op Behaviour)) 0x2204 = .error (.unknownOpcode 0x2204) ∧
    dispatch [storeThenPop] 0 = .ok storeThenPop ∧
    (storeThenPop.execute (decodeOperands storeThenPop 0)).run Config.unit
      { callState with pc := callState.pc + 2 } = .fault .stackUnderflow := ⟨rfl, rfl, rfl, rfl⟩

theorem witness_StepInLoadedFaultedAndUnloaded :
    ({ callState with rs := .loaded }).rs = .loaded ∧ faultedState.rs = .faulted ∧
    State.reset.rs = .unloaded ∧ State.reset.loaded = false := ⟨rfl, rfl, rfl, rfl⟩

theorem witness_EveryStepAnswersANextState :
    callState.Inv Config.unit ∧ callState.rs ≠ .loaded ∧ callState.rs ≠ .faulted :=
  ⟨callState_inv, by decide, by decide⟩

theorem witness_FaultingStepHasNoOtherEffect :
    (boot [0xffff]).rs ≠ .faulted ∧
    (Engine.rc6 Config.unit).step (boot [0xffff]) = .next faultedState ∧ faultedState.rs = .faulted :=
  ⟨by decide, next_of_after (by decide), rfl⟩

theorem witness_ImageBoundFaultsWhereverMemoryBoundDoes :
    Config.unit.loadOffset + callState.plen ≤ Config.unit.memSize ∧
    (Engine.rc6 { Config.unit with fetchBound := .image }).step callState = .next calledState ∧
    calledState.rs = .running := ⟨by decide, next_of_after (by decide), rfl⟩

/-- At the reset state, and at the highest place an instruction fits. -/
theorem witness_PlacedInstructionIsRunNext :
    State.reset.mem.wf = true ∧ decodeTableWord 16 0x2204 = some (.call 0x204) ∧
    ({ callState with pc := 0xffe }).mem.wf = true := by decide

theorem witness_SelfLoopIsAFixedPoint :
    (boot [0x1200]).steppable ∧ 0x200 < 0x1000 ∧ (boot [0x1200]).pc = (0x200 : Nat) ∧
    fetch Config.unit (boot [0x1200]) (boot [0x1200]).pc = .ok (0x1000 ||| BitVec.ofNat 16 0x200) :=
  ⟨.inr (.inl rfl), by decide, by decide, by decide⟩

theorem witness_StepKeepsTheInvariant :
    callState.Inv Config.unit ∧ step callState = .next calledState := ⟨callState_inv, callState_step⟩

theorem witness_StepKeepsThePcBound :
    callState.Inv Config.unit ∧ callState.PcBounded Config.unit ∧ step callState = .next calledState :=
  ⟨callState_inv, callState_pcBounded, callState_step⟩

theorem witness_EveryCommandKeepsTheInvariant :
    callState.Inv Config.unit ∧
    (Engine.rc6 Config.unit).command .stop callState = .next (callState, .done) ∧
    (commanded (.load (.image [0x12])) callState).isSome = true ∧
    (commanded (.run 2) callState).isSome = true ∧
    (commanded (.restore (takeSnapshot Config.unit callState)) callState).isSome = true :=
  ⟨callState_inv, rfl, by decide, by decide, by decide +kernel⟩

/-- An image of no bytes, and H13's largest. -/
theorem witness_LoadReplacesTheWholeMemory :
    Config.unit.loadOffset + ([] : List Byte).length ≤ Config.unit.memSize ∧
    Config.unit.loadOffset + (List.replicate 3584 (0 : Byte)).length ≤ Config.unit.memSize :=
  ⟨by decide, by rw [List.length_replicate]; decide⟩

theorem witness_StopHaltsARunningUnit : calledState.rs = .running ∧ callState.rs ≠ .running := by
  decide

theorem witness_RestoreOfASnapshotBringsBackTheState : callState.Inv Config.unit := callState_inv

/-- Tags that differ; tags that match with a wrong shape; a snapshot the unit took. -/
theorem witness_RestoreReplacesAllOrNothing :
    (badSnapshot "OTHER" 1).id ≠ Config.unit.archId ∧
    (badSnapshot "RC6" 2).version ≠ Config.unit.snapVersion ∧
    ((badSnapshot "RC6" 1).id = Config.unit.archId ∧
      (badSnapshot "RC6" 1).version = Config.unit.snapVersion ∧
      (badSnapshot "RC6" 1).regs.length ≠ Config.unit.nreg) ∧
    ((takeSnapshot Config.unit callState).id = Config.unit.archId ∧
      (takeSnapshot Config.unit callState).version = Config.unit.snapVersion ∧
      (takeSnapshot Config.unit callState).wellShaped Config.unit = true) := by decide +kernel

/-- A catalog of one Op that reads a register the unit has not: a step of it is refused (R153). -/
def missingRegisterEngine : Engine :=
  ⟨Config.unit, [⟨"TEST", 0x2204, [], fun _ => .readReg 16 fun _ => .done⟩]⟩

/-- A STEP that completes, one that faults, one that is refused; a RUN; the run state LOADED. -/
theorem witness_RunIsStepAfterStep :
    callState.rs ≠ .loaded ∧
    (Engine.rc6 Config.unit).command .step callState = .next (calledState, .done) ∧
    calledState.rs ≠ .faulted ∧ faultedState.rs = .faulted ∧
    (Engine.rc6 Config.unit).command .step (boot [0xffff]) =
      .next (faultedState, .fault ⟨.unknownOpcode, 0x200, some 0xffff, .word 0xffff⟩) ∧
    missingRegisterEngine.command .step callState = .refused (.registerOutOfRange 16) ∧
    (Engine.rc6 Config.unit).command (.run 1) callState = .next (calledState, .done) ∧
    ({ callState with rs := .loaded }).rs = .loaded :=
  ⟨by decide, by rfl, by decide, rfl, by rfl, by rfl, by rfl, rfl⟩

theorem witness_RunStateTable :
    callState.Inv Config.unit ∧
    (Engine.rc6 Config.unit).command .reset callState = .next (callState, .done) ∧
    ({ callState with rs := .loaded }).rs = .loaded := ⟨callState_inv, by rfl, rfl⟩

theorem witness_OnlyTheHostClearsALatchedFault :
    faultedState.rs = .faulted ∧
    faultedState.fr = some ⟨.unknownOpcode, 0x200, some 0xffff, .word 0xffff⟩ ∧
    (Engine.rc6 Config.unit).command .reset faultedState = .next (boot [0xffff], .done) :=
  ⟨rfl, rfl, by rfl⟩

theorem witness_HostReadsChangeNothing :
    callState.stack = [] ∧ calledState.stack = [] ++ [0x202] := by decide

end Sys2Proof.Tests
end

