-- ==== Sys2Proof/Proofs/StateInvariants.lean ====
section
/-! PROOFS. The invariants of R31: they hold at construction, a taken fault, a completed behaviour and a
cleared fault keep them, and so do STEP, RUN and every other host command. -/

namespace Sys2Proof.Machine

/-! ## The states that meet the invariants -/

/-- Construction (R30). -/
theorem constructed_inv (c : Config) : (State.constructed c).Inv c where
  regs_length := List.length_replicate
  mem_wf := Memory.wf_nil
  mem_below := Memory.below_nil _
  stack_length := Nat.zero_le _
  plen_zero _ := rfl
  image_fits h := nomatch h
  fr_none_iff := ⟨fun _ => by simp [State.constructed], fun _ => rfl⟩
  unloaded_imp _ := rfl
  loaded_imp h := by simp [State.constructed] at h
  fpc_eq _ h := nomatch h

/-- A latched fault is recorded at the pc, and says nothing of `loaded` (R183). -/
theorem takeFault_inv {c : Config} {s : State} (hs : s.Inv c) (f : Fault) (w : Option Word) :
    (takeFault s f w).Inv c :=
  { hs with
    fr_none_iff := by simp
    unloaded_imp := by simp
    loaded_imp := by simp
    fpc_eq := by simp }

/-- Clearing a fault over a new context of the right shape, as RESET and RESTORE do (R187, R192). -/
theorem clearFault_inv {c : Config} {s : State} (hs : s.Inv c) {regs : List Byte} {mem : Memory}
    {stack : List Int} (pc : Int) (hregs : regs.length = c.nreg) (hwf : mem.wf = true)
    (hbelow : mem.below c.memSize = true) (hstack : stack.length ≤ c.stackDepth) :
    (clearFault { s with regs := regs, mem := mem, stack := stack, pc := pc }).Inv c :=
  { hs with
    regs_length := hregs
    mem_wf := hwf
    mem_below := hbelow
    stack_length := hstack
    fr_none_iff := by cases s.loaded <;> simp
    unloaded_imp := by cases s.loaded <;> simp
    loaded_imp := by cases s.loaded <;> simp
    fpc_eq := by simp }

/-! ## The execute phase -/

/-- What holds inside a step once the fetch has succeeded: the invariants, a loaded program, and no
latched fault. -/
structure State.MidStep (c : Config) (s : State) : Prop where
  inv : s.Inv c
  loaded : s.loaded = true
  fr_none : s.fr = none

/-- Inside a step the invariants speak of the context's shape alone, so an update that keeps that shape
and the control state keeps them, wherever it moves the pc. -/
theorem State.MidStep.of_sameControl {c : Config} {s t : State} (hs : s.MidStep c)
    (hctl : t.sameControl s) (hregs : t.regs.length = c.nreg) (hwf : t.mem.wf = true)
    (hbelow : t.mem.below c.memSize = true) (hstack : t.stack.length ≤ c.stackDepth) :
    t.MidStep c := by
  obtain ⟨hloaded, hplen, hrs, hfr⟩ := hctl
  have hnone : t.fr = none := hfr.trans hs.fr_none
  exact {
    inv := {
      regs_length := hregs
      mem_wf := hwf
      mem_below := hbelow
      stack_length := hstack
      plen_zero := by rw [hloaded, hplen]; exact hs.inv.plen_zero
      image_fits := by rw [hloaded, hplen]; exact hs.inv.image_fits
      fr_none_iff := by rw [hfr, hrs]; exact hs.inv.fr_none_iff
      unloaded_imp := by rw [hloaded, hrs]; exact hs.inv.unloaded_imp
      loaded_imp := by rw [hloaded, hrs]; exact hs.inv.loaded_imp
      fpc_eq := by simp [hnone] }
    loaded := hloaded.trans hs.loaded
    fr_none := hnone }

/-- Moving the pc (R160 to R163). -/
theorem State.MidStep.setPc {c : Config} {s : State} (hs : s.MidStep c) (pc : Int) :
    State.MidStep c { s with pc := pc } :=
  hs.of_sameControl ⟨rfl, rfl, rfl, rfl⟩ hs.inv.regs_length hs.inv.mem_wf hs.inv.mem_below
    hs.inv.stack_length

/-- Another call stack that fits (R155, R156). -/
theorem State.MidStep.setStack {c : Config} {s : State} (hs : s.MidStep c) {stack : List Int}
    (hstack : stack.length ≤ c.stackDepth) : (s.setStack stack).MidStep c :=
  hs.of_sameControl ⟨rfl, rfl, rfl, rfl⟩ hs.inv.regs_length hs.inv.mem_wf hs.inv.mem_below hstack

/-- Every behaviour that completes keeps what holds inside a step (R150). -/
theorem Behaviour.run_midStep {c : Config} (b : Behaviour) {s t : State} (hs : s.MidStep c)
    (h : b.run c s = .next t) : t.MidStep c := by
  refine Behaviour.run_keeps (State.MidStep c) ?reg ?mem ?push ?pop ?jump ?hop b hs h
  case reg =>
    intro s i v hs _ _
    exact hs.of_sameControl ⟨rfl, rfl, rfl, rfl⟩ (by simp [hs.inv.regs_length]) hs.inv.mem_wf
      hs.inv.mem_below hs.inv.stack_length
  case mem =>
    intro s a v hs h0 ha
    exact hs.of_sameControl ⟨rfl, rfl, rfl, rfl⟩ hs.inv.regs_length
      (Memory.wf_write hs.inv.mem_wf _ _) (Memory.below_write hs.inv.mem_below (by omega) _)
      hs.inv.stack_length
  case push =>
    intro s v hs hroom
    have hle := hs.inv.stack_length
    exact hs.setStack (by simp; omega)
  case pop =>
    intro s hs
    have hle := hs.inv.stack_length
    exact hs.setStack (by simp; omega)
  case jump => exact fun s t hs => hs.setPc t
  case hop => exact fun s d hs => hs.setPc _

/-- The end of a step that completes (R181). -/
theorem State.MidStep.complete_inv {c : Config} {s : State} (hs : s.MidStep c) : s.complete.Inv c :=
  { hs.inv with
    fr_none_iff := by simp [hs.fr_none]
    unloaded_imp := by simp
    loaded_imp := fun _ => hs.loaded
    fpc_eq := by simp [hs.fr_none] }

/-- The execute phase ends in the invariants, whether the behaviour completed or faulted (R182, R183). -/
theorem executePhase_inv {c : Config} {w : Word} {b : Behaviour} {s t : State} (hs : s.MidStep c)
    (h : executePhase c w b s = .next t) : t.Inv c := by
  obtain ⟨u, hu, rfl⟩ | ⟨f, -, rfl⟩ := executePhase_next h
  · exact (b.run_midStep (hs.setPc _) hu).complete_inv
  · exact takeFault_inv hs.inv f _

/-! ## STEP and RUN -/

/-- In a run state in which STEP is defined no fault is latched (R31 (e)). -/
theorem State.Inv.fr_none_of_steppable {c : Config} {s : State} (hs : s.Inv c) (h : s.steppable) :
    s.fr = none := by
  rw [hs.fr_none_iff]
  rcases h with h | h | h | h <;> simp [h]

/-- The sequencer keeps the invariants when what follows the fetch does (R181, R184). -/
theorem sequence_inv {c : Config} {s t : State} {rest} (hs : s.Inv c)
    (hrest : ∀ w, s.MidStep c → rest w = .next t → t.Inv c) (h : sequence c s rest = .next t) :
    t.Inv c := by
  rcases s.rs_cases with hr | hr | hr
  · rw [sequence_loaded hr] at h; cases h
  · rw [sequence_faulted hr] at h; cases h; exact hs
  · rw [sequence_steppable hr] at h
    split at h
    · cases h; exact takeFault_inv hs _ _
    · rename_i w hw
      exact hrest w ⟨hs, (fetch_ok hw).1, hs.fr_none_of_steppable hr⟩ h

/-- The dispatch phase keeps the invariants when what follows it does (R182, R183). -/
theorem dispatchPhase_inv {c : Config} {α : Type} {s t : State} {w : Word}
    {selected : Except DecodeError α} {rest : α → Host.Outcome State Fault Refusal} (hs : s.Inv c)
    (hrest : ∀ a, rest a = .next t → t.Inv c) (h : dispatchPhase s w selected rest = .next t) :
    t.Inv c := by
  cases selected with
  | error e => cases h; exact takeFault_inv hs _ _
  | ok a => exact hrest a h

/-- The meaning of an instruction is the execute phase of its behaviour, in the unit. -/
theorem exec_eq_executePhase (i : Instr) (s : State) :
    exec i s = executePhase Config.unit (encode i) (behaviourOf Config.unit i) s := by
  cases i <;> rfl

/-- STEP of a table-driven engine (R181). -/
theorem Engine.step_inv {e : Engine} {s t : State} (hs : s.Inv e.config) (h : e.step s = .next t) :
    t.Inv e.config :=
  sequence_inv hs (fun _ hmid => dispatchPhase_inv hs fun _ => executePhase_inv hmid) h

/-- STEP after STEP (R188). -/
theorem Engine.steps_inv {e : Engine} (n : Nat) {s t : State} (hs : s.Inv e.config)
    (h : e.steps n s = .next t) : t.Inv e.config := by
  induction n generalizing s with
  | zero => cases h; exact hs
  | succ n ih =>
    rw [Engine.steps] at h
    split at h
    · rename_i u hu
      have hinv := Engine.step_inv hs hu
      split at h
      · cases h; exact hinv
      · exact ih hinv h
    · cases h
    · cases h

/-- RUN (R188). -/
theorem Engine.run_inv {e : Engine} {n : Nat} {s t : State} (hs : s.Inv e.config)
    (h : e.run n s = .next t) : t.Inv e.config := by
  unfold Engine.run at h
  split at h
  · cases h
  · exact Engine.steps_inv n hs h

/-- The report to the host leaves the state it reports on. -/
theorem reported_next {o : Host.Outcome State Fault Refusal} {t : State} {r : Reply}
    (h : reported o = .next (t, r)) : o = .next t := by
  cases o <;> cases h
  rfl

/-! ## The other commands that change the state -/

/-- LOAD, accepted or answered with a failure (R185, R186). -/
theorem loadCommand_inv {c : Config} {source : Source} {s t : State} {r : Reply} (hs : s.Inv c)
    (h : loadCommand c source s = .next (t, r)) : t.Inv c := by
  cases source with
  | noLoader => cases h; exact hs
  | image img =>
    simp only [loadCommand] at h
    split at h
    · rename_i hfit
      cases h
      exact { hs with
        mem_wf := Memory.wf_install Memory.wf_nil _ _
        mem_below := Memory.below_install (Memory.below_nil _) hfit
        plen_zero := by simp [loadImage]
        image_fits := fun _ => hfit
        fr_none_iff := by simp [loadImage]
        unloaded_imp := by simp [loadImage]
        loaded_imp := fun _ => rfl
        fpc_eq := by simp [loadImage] }
    · cases h

/-- RESET (R187). -/
theorem resetUnit_inv {c : Config} {s : State} (hs : s.Inv c) : (resetUnit c s).Inv c :=
  clearFault_inv hs c.entry List.length_replicate (Memory.wf_keepWindow hs.mem_wf _ _)
    (Memory.below_keepWindow hs.mem_below _ _) (Nat.zero_le _)

/-- STOP (R189). -/
theorem stopUnit_inv {c : Config} {s : State} (hs : s.Inv c) : (stopUnit s).Inv c := by
  by_cases hr : s.rs = .running
  · have hnone : s.fr = none := hs.fr_none_of_steppable (.inr (.inr (.inl hr)))
    exact { hs with
      fr_none_iff := by simp [stopUnit, hr, hnone]
      unloaded_imp := by simp [stopUnit, hr]
      loaded_imp := fun _ => hs.loaded_imp (.inr (.inr (.inl hr))) }
  · have hsame : stopUnit s = s := by simp [stopUnit, hr]
    rw [hsame]
    exact hs

/-- RESTORE, accepted or answered with a failure (R192). -/
theorem restoreCommand_inv {c : Config} {snap : Snapshot} {s t : State} {r : Reply} (hs : s.Inv c)
    (h : restoreCommand c snap s = .next (t, r)) : t.Inv c := by
  unfold restoreCommand at h
  split at h
  · cases h; exact hs
  · split at h
    · rename_i hshape
      cases h
      simp only [Snapshot.wellShaped, Bool.and_eq_true, decide_eq_true_eq] at hshape
      obtain ⟨⟨⟨⟨hregs, hmem⟩, hstack⟩, -⟩, -⟩ := hshape
      exact clearFault_inv hs snap.pc (by simp [hregs]) (Memory.wf_install Memory.wf_nil _ _)
        (Memory.below_install (Memory.below_nil _) (by simp [hmem])) hstack
    · cases h

/-! ## The statements -/

/-- Settles O47: an instruction of the unit is an execute phase, which keeps the invariants. -/
theorem stepKeepsTheInvariant : Obligations.StepKeepsTheInvariant := by
  intro s t hs h
  refine sequence_inv hs (fun w hmid => dispatchPhase_inv hs fun i hexec => ?_) h
  rw [exec_eq_executePhase] at hexec
  exact executePhase_inv hmid hexec

/-- Settles O49, command by command. -/
theorem everyCommandKeepsTheInvariant : Obligations.EveryCommandKeepsTheInvariant := by
  intro e cmd s t r hs h
  cases cmd with
  | load source => exact loadCommand_inv hs h
  | reset => cases h; exact resetUnit_inv hs
  | step => exact Engine.step_inv hs (reported_next h)
  | run n => exact Engine.run_inv hs (reported_next h)
  | stop => cases h; exact stopUnit_inv hs
  | snapshot => cases h; exact hs
  | restore snap => exact restoreCommand_inv hs h
  | top => cases h; exact hs
  | inspect => cases h; exact hs

/-- Settles O12: construction is a test of validity, and what it gives is `State.constructed`. -/
theorem constructionGivesThePowerOnState : Obligations.ConstructionGivesThePowerOnState := by
  intro e
  constructor
  · intro hvalid
    simp [Engine.construct, hvalid]
  · intro hvalid
    have hregs : ∀ i < e.config.nreg, (State.constructed e.config).regs[i]? = some 0 :=
      fun i hi => by simp [State.constructed, hi]
    exact ⟨State.constructed e.config, by simp [Engine.construct, hvalid], List.length_replicate,
      hregs, rfl, Memory.read_nil, rfl, rfl, rfl, rfl, rfl, constructed_inv _⟩

/-- Settles O46: the reset state is the constructed state of the unit, with `ENTRY` inside memory. -/
theorem resetStateMeetsTheInvariant : Obligations.ResetStateMeetsTheInvariant := by
  have hbound : State.reset.PcBounded Config.unit :=
    { pc_nonneg := by decide
      pc_le := by decide
      entries := fun _ hv => nomatch hv }
  exact ⟨rfl, rfl, rfl, rfl, rfl, rfl, rfl, rfl, constructed_inv _, hbound⟩

end Sys2Proof.Machine
end

