-- ==== Sys2Proof/Proofs/MemoryAccess.lean ====
section
/-! PROOFS. The memory accesses of 20_memory.md: data reads and writes (R55, R56), the instruction fetch
within its bounds (R52 to R54, R197), a fetch after a store (R60, R63), and that the bound `IMAGE` is the
stricter of the two (R53). -/

namespace Sys2Proof.Machine

/-! ## Data access -/

/-- The addresses a data access may touch (R55, R56). -/
theorem inMemory_iff (c : Config) (a : Int) :
    inMemory c a = true ↔ 0 ≤ a ∧ a ≤ (c.memSize : Int) - 1 := by
  simp [inMemory]

theorem inMemory_eq_false {c : Config} {a : Int} (h : a < 0 ∨ (c.memSize : Int) - 1 < a) :
    inMemory c a = false := by
  rw [Bool.eq_false_iff, ne_eq, inMemory_iff]
  omega

theorem memRead_inside {c : Config} (s : State) {a : Int} (h0 : 0 ≤ a)
    (hlast : a ≤ (c.memSize : Int) - 1) : memRead c s a = .ok (s.mem.read a.toNat) :=
  if_pos ((inMemory_iff c a).2 ⟨h0, hlast⟩)

theorem memRead_outside {c : Config} (s : State) {a : Int}
    (h : a < 0 ∨ (c.memSize : Int) - 1 < a) : memRead c s a = .error (.boundsError a) := by
  simp [memRead, inMemory_eq_false h]

theorem memWrite_inside {c : Config} (s : State) {a : Int} (v : Int) (h0 : 0 ≤ a)
    (hlast : a ≤ (c.memSize : Int) - 1) :
    memWrite c s a v = .ok (s.setByte a.toNat (byteOfInt v)) :=
  if_pos ((inMemory_iff c a).2 ⟨h0, hlast⟩)

theorem memWrite_outside {c : Config} (s : State) {a : Int} (v : Int)
    (h : a < 0 ∨ (c.memSize : Int) - 1 < a) : memWrite c s a v = .error (.boundsError a) := by
  simp [memWrite, inMemory_eq_false h]

/-- The pair read when both of its reads succeed (R55). -/
theorem memReadPair_ok {c : Config} {s : State} {a : Int} {first second : Byte}
    (h1 : memRead c s a = .ok first) (h2 : memRead c s (a + 1) = .ok second) :
    memReadPair c s a = .ok (wordOfBytes first second) := by
  simp only [memReadPair, h1, h2]

theorem memReadPair_error_first {c : Config} {s : State} {a : Int} {f : Fault}
    (h1 : memRead c s a = .error f) : memReadPair c s a = .error f := by
  simp only [memReadPair, h1]

theorem memReadPair_error_second {c : Config} {s : State} {a : Int} {first : Byte} {f : Fault}
    (h1 : memRead c s a = .ok first) (h2 : memRead c s (a + 1) = .error f) :
    memReadPair c s a = .error f := by
  simp only [memReadPair, h1, h2]

/-! ## Reading after a write -/

/-- A byte of memory after a byte was set: the new one at its address, the old one elsewhere (R56). -/
theorem read_setByte {s : State} (hwf : s.mem.wf = true) (k : Nat) (b : Byte) (j : Nat) :
    (s.setByte k b).mem.read j = if j = k then b else s.mem.read j :=
  Memory.read_write hwf k b j

theorem memRead_setByte_same {c : Config} {s : State} (hwf : s.mem.wf = true) {a : Int} (b : Byte)
    (h0 : 0 ≤ a) (hlast : a ≤ (c.memSize : Int) - 1) :
    memRead c (s.setByte a.toNat b) a = .ok b := by
  rw [memRead_inside _ h0 hlast, read_setByte hwf, if_pos rfl]

theorem memRead_setByte_ne {c : Config} {s : State} (hwf : s.mem.wf = true) {a a' : Int} (b : Byte)
    (h0 : 0 ≤ a) (hne : a' ≠ a) : memRead c (s.setByte a.toNat b) a' = memRead c s a' := by
  by_cases hin : 0 ≤ a' ∧ a' ≤ (c.memSize : Int) - 1
  · obtain ⟨h0', hlast'⟩ := hin
    have hk : a'.toNat ≠ a.toNat := by omega
    rw [memRead_inside _ h0' hlast', memRead_inside _ h0' hlast', read_setByte hwf, if_neg hk]
  · have hout : a' < 0 ∨ (c.memSize : Int) - 1 < a' := by omega
    rw [memRead_outside _ hout, memRead_outside _ hout]

/-- Every byte of memory, as a number, after a `MemWrite` that succeeded (R56). -/
theorem memWrite_ok_read {c : Config} {s t : State} {a v : Int} (hwf : s.mem.wf = true)
    (h : memWrite c s a v = .ok t) (j : Nat) :
    ((t.mem.read j).toNat : Int) = if (j : Int) = a then castTo v 8 else ((s.mem.read j).toNat : Int) := by
  obtain ⟨h0, -, rfl⟩ := memWrite_ok h
  have hj : j = a.toNat ↔ (j : Int) = a := by omega
  rw [read_setByte hwf, ← byteOfInt_toNat]
  simp only [hj]
  split <;> rfl

/-! ## The two values of `FETCH_BOUND` -/

/-- With the image inside the memory, whatever `IMAGE` lets a fetch read `MEMORY` does too (R53). -/
theorem fetch_memory_of_image {c : Config} {s : State} {a : Int} {w : Word}
    (hfit : c.loadOffset + s.plen ≤ c.memSize)
    (h : fetch { c with fetchBound := .image } s a = .ok w) :
    fetch { c with fetchBound := .memory } s a = .ok w := by
  obtain ⟨hloaded, h0, hlast, -, rfl⟩ := fetch_ok h
  have hmem : a + 1 ≤ (c.memSize : Int) - 1 := by
    simp only [fetchLast] at hlast
    omega
  rw [fetch_eq, if_pos ⟨hloaded, h0, hmem, nofun⟩]

/-- A STEP that completes has fetched a word, in a run state in which STEP is defined (R181). -/
theorem Engine.fetch_ok_of_step_running {e : Engine} {s t : State} (h : e.step s = .next t)
    (hrun : t.rs = .running) : s.steppable ∧ ∃ w, fetch e.config s s.pc = .ok w := by
  obtain ⟨hr, rfl⟩ | ⟨-, -, rfl⟩ | ⟨-, _, _, -, -, rfl⟩ | ⟨hs, w, -, hw, -⟩ := Engine.step_next h
  · rw [hr] at hrun; cases hrun
  · cases hrun
  · cases hrun
  · exact ⟨hs, w, hw⟩

/-- A STEP whose fetch gives `w` is the phases that follow the fetch, on `w` (R181). -/
theorem Engine.step_of_fetch_ok {e : Engine} {s : State} {w : Word} (hs : s.steppable)
    (hw : fetch e.config s s.pc = .ok w) :
    e.step s = dispatchPhase s w (dispatch e.catalog w) fun op =>
      executePhase e.config w (op.execute (decodeOperands op w)) s := by
  rw [Engine.step, sequence_steppable hs, hw]

/-- No behaviour of RC6 depends on `FETCH_BOUND`. -/
theorem rc6Catalog_fetchBound (c : Config) (b : FetchBound) :
    rc6Catalog { c with fetchBound := b } = rc6Catalog c := rfl

section
variable (c : Config) (b : FetchBound) (s : State)

theorem readReg_fetchBound (i : Int) : readReg { c with fetchBound := b } s i = readReg c s i := rfl

theorem writeReg_fetchBound (i v : Int) :
    writeReg { c with fetchBound := b } s i v = writeReg c s i v := rfl

theorem memRead_fetchBound (a : Int) : memRead { c with fetchBound := b } s a = memRead c s a := rfl

theorem memReadPair_fetchBound (a : Int) :
    memReadPair { c with fetchBound := b } s a = memReadPair c s a := rfl

theorem memWrite_fetchBound (a v : Int) :
    memWrite { c with fetchBound := b } s a v = memWrite c s a v := rfl

theorem push_fetchBound (v : Int) : push { c with fetchBound := b } s v = push c s v := rfl

/-- No behaviour can tell the value of `FETCH_BOUND`, since no primitive of the context reads it. -/
theorem Behaviour.run_fetchBound (p : Behaviour) :
    p.run { c with fetchBound := b } s = p.run c s := by
  induction p generalizing s with
  | done => rfl
  | readReg _ _ ih | writeReg _ _ _ ih =>
    simp only [Behaviour.run, readReg_fetchBound, writeReg_fetchBound, ih]
  | memRead _ _ ih | memReadPair _ _ ih | memWrite _ _ _ ih =>
    simp only [Behaviour.run, memRead_fetchBound, memReadPair_fetchBound, memWrite_fetchBound, ih]
  | push _ _ ih | pop _ ih => simp only [Behaviour.run, push_fetchBound, ih]
  | top _ ih | inspect _ ih | readPc _ ih => exact ih _ s
  | jump _ _ ih | hop _ _ ih => exact ih _

theorem executePhase_fetchBound (w : Word) (p : Behaviour) :
    executePhase { c with fetchBound := b } w p s = executePhase c w p s := by
  simp only [executePhase, Behaviour.run_fetchBound]

end

/-- The engine with RC6 steps alike in two units that differ in `FETCH_BOUND` alone and fetch the same
word. -/
theorem rc6_step_eq_of_fetch_ok {c : Config} {b b' : FetchBound} {s : State} {w : Word}
    (hs : s.steppable) (hw : fetch { c with fetchBound := b } s s.pc = .ok w)
    (hw' : fetch { c with fetchBound := b' } s s.pc = .ok w) :
    (Engine.rc6 { c with fetchBound := b }).step s = (Engine.rc6 { c with fetchBound := b' }).step s := by
  rw [Engine.step_of_fetch_ok (e := Engine.rc6 _) hs hw,
    Engine.step_of_fetch_ok (e := Engine.rc6 _) hs hw']
  simp only [Engine.rc6, rc6Catalog_fetchBound, executePhase_fetchBound]

/-! ## The statements -/

/-- Settles O17: inside the memory the write is `setByte`, and reads after it go by address. -/
theorem memoryWriteThenRead : Obligations.MemoryWriteThenRead := by
  intro c s a v hwf hbelow
  refine ⟨fun h0 hlast => ?_, memWrite_outside s v⟩
  exact ⟨s.setByte a.toNat (byteOfInt v), byteOfInt v, memWrite_inside s v h0 hlast,
    memRead_setByte_same hwf _ h0 hlast, byteOfInt_toNat v,
    fun _ hne => memRead_setByte_ne hwf _ h0 hne, Memory.wf_write hwf _ _,
    Memory.below_write hbelow (by omega) _, rfl⟩

/-- Settles O19: both values of `FETCH_BOUND` give the `FETCH_LAST` the fetch compares with. -/
theorem fetchReadsTheBigEndianWordWithinItsBounds :
    Obligations.FetchReadsTheBigEndianWordWithinItsBounds := by
  intro c s a last hbound
  have hlast : fetchLast c s.plen c.fetchBound = last := by
    obtain ⟨hb, rfl⟩ | ⟨hb, rfl⟩ := hbound <;> rw [hb, fetchLast]
  constructor
  · intro hbad
    rw [fetch_eq, hlast, if_neg]
    rintro ⟨hloaded, h0, ha, hplen⟩
    obtain hunloaded | hneg | hbeyond | ⟨himage, hempty⟩ := hbad
    · simp [hloaded] at hunloaded
    · omega
    · omega
    · exact hplen himage hempty
  · intro hloaded h0 ha hplen
    rw [fetch_eq, hlast, if_pos ⟨hloaded, h0, ha, hplen⟩]
    exact ⟨_, rfl, wordOfBytes_toNat _ _⟩

/-- Settles O20: a fetch composes two bytes of the one memory that the store wrote. -/
theorem fetchSeesStores : Obligations.FetchSeesStores := by
  intro c s t a v f w hwf hwrite hfetch
  obtain ⟨-, h0, -, -, rfl⟩ := fetch_ok hfetch
  have hf : (f.toNat : Int) = f := Int.toNat_of_nonneg h0
  have hf' : ((f.toNat + 1 : Nat) : Int) = f + 1 := by omega
  rw [wordOfBytes_toNat, Nat.cast_add, Nat.cast_mul, memWrite_ok_read hwf hwrite,
    memWrite_ok_read hwf hwrite, hf, hf']
  rfl

/-- Settles O43: the two units differ in the fetch alone, and a STEP that completes has fetched. -/
theorem imageBoundFaultsWhereverMemoryBoundDoes :
    Obligations.ImageBoundFaultsWhereverMemoryBoundDoes := by
  intro c s t hfit hstep hrun
  obtain ⟨hs, w, hw⟩ := Engine.fetch_ok_of_step_running hstep hrun
  rw [← rc6_step_eq_of_fetch_ok hs hw (fetch_memory_of_image hfit hw)]
  exact hstep

/-- Settles O18: the pair read is two single reads, the lower address first. -/
theorem dataReadsAreBoundedAndBigEndian : Obligations.DataReadsAreBoundedAndBigEndian := by
  intro c s a
  refine ⟨memRead_inside s, fun hout => ?outside, fun h0 hlast => ?pair, fun h0 hend => ?straddling⟩
  case outside =>
    exact ⟨memRead_outside s hout, memReadPair_error_first (memRead_outside s hout)⟩
  case pair =>
    have hnext : (a + 1).toNat = a.toNat + 1 := by omega
    have hsecond := memRead_inside s (show 0 ≤ a + 1 by omega) hlast
    rw [hnext] at hsecond
    exact ⟨_, memReadPair_ok (memRead_inside s h0 (by omega)) hsecond, wordOfBytes_toNat _ _⟩
  case straddling =>
    exact memReadPair_error_second (memRead_inside s h0 (by omega))
      (memRead_outside s (.inr (by omega)))

end Sys2Proof.Machine
end

