-- ==== Sys2Proof/Proofs/Encoding.lean ====
section
/-! PROOFS. The encoding of RC6 (30_encoding.md R85 to R89): a word selects at most one row of the table,
the rows' ranges are those of R87, and decode and encode are inverse to each other on the well-formed
instructions and the words that decode. -/

namespace Sys2Proof

/-! ## The fields of a word, in numbers -/

/-- A mask that is one run of bits extracts that run, right-aligned (R130). -/
theorem extract_run (w : Word) {lo len : Nat} (hlen : 0 < len) (h : lo + len ≤ 16) :
    extract w (BitVec.ofNat 16 ((2 ^ len - 1) * 2 ^ lo)) = w.toNat / 2 ^ lo % 2 ^ len := by
  rw [extract, ctz_run lo (by omega) len (by omega) hlen h, BitVec.toNat_ushiftRight,
    toNat_and_run w h, Nat.shiftRight_eq_div_pow, Nat.mul_div_cancel _ (Nat.two_pow_pos lo)]

theorem extract_nnn (w : Word) : extract w fieldNnn.mask = w.toNat % 4096 := by
  simpa [fieldNnn] using extract_run w (lo := 0) (len := 12) (by omega) (by omega)

theorem extract_x (w : Word) : extract w fieldX.mask = w.toNat / 256 % 16 :=
  extract_run w (lo := 8) (len := 4) (by omega) (by omega)

theorem extract_y (w : Word) : extract w fieldY.mask = w.toNat / 16 % 16 :=
  extract_run w (lo := 4) (len := 4) (by omega) (by omega)

theorem extract_kk (w : Word) : extract w fieldKk.mask = w.toNat % 256 := by
  simpa [fieldKk] using extract_run w (lo := 0) (len := 8) (by omega) (by omega)

/-! ## The operand values of a word, row by row (R134) -/

theorem decodeOperands_opJp (w : Word) : decodeOperands opJp w = [w.toNat % 4096] :=
  congrArg (fun nnn => [nnn]) (extract_nnn w)

theorem decodeOperands_opCall (w : Word) : decodeOperands opCall w = [w.toNat % 4096] :=
  congrArg (fun nnn => [nnn]) (extract_nnn w)

theorem decodeOperands_opSe (w : Word) :
    decodeOperands opSe w = [w.toNat / 256 % 16, w.toNat % 256] :=
  congrArg₂ (fun x kk => [x, kk]) (extract_x w) (extract_kk w)

theorem decodeOperands_opAdd (w : Word) :
    decodeOperands opAdd w = [w.toNat / 256 % 16, w.toNat / 16 % 16] :=
  congrArg₂ (fun x y => [x, y]) (extract_x w) (extract_y w)

/-! ## The word of an instruction, in numbers -/

/-- The number of an instruction's word when the operands fit: each field at its place (R85, R89). -/
def Instr.number : Instr → Nat
  | .nop => 0
  | .ret => 0xee
  | .jp nnn => 0x1000 + nnn
  | .call nnn => 0x2000 + nnn
  | .se x kk => 0x3000 + x * 256 + kk
  | .add x y => 0x8004 + x * 256 + y * 16

/-- A field of `k` bits put at bit `j` of a word that is zero there is added to it. -/
theorem toNat_or_field {a : Word} {n k j : Nat} (hn : n < 2 ^ k) (ha : a.toNat / 2 ^ j % 2 ^ k = 0)
    (hsum : a.toNat + n * 2 ^ j < 2 ^ 16) :
    (a ||| BitVec.ofNat 16 n <<< j).toNat = a.toNat + n * 2 ^ j := by
  have hclear : ∀ i < 16, j ≤ i → i < j + k → a.getLsbD i = false := by
    intro i _ hj hk
    have hbit : (a.toNat / 2 ^ j % 2 ^ k).testBit (i - j) = false := by rw [ha, Nat.zero_testBit]
    simpa [← BitVec.testBit_toNat, Nat.testBit_mod_two_pow, Nat.testBit_div_two_pow, hj,
      show i - j < k by omega] using hbit
  have hdisjoint : a &&& BitVec.ofNat 16 n <<< j = 0 := by
    rw [BitVec.and_comm]; exact field_and_eq_zero hn hclear
  have hfield : (BitVec.ofNat 16 n <<< j).toNat = n * 2 ^ j := by
    have hle : n ≤ n * 2 ^ j := Nat.le_mul_of_pos_right n (Nat.two_pow_pos j)
    rw [BitVec.toNat_shiftLeft, BitVec.toNat_ofNat, Nat.shiftLeft_eq,
      Nat.mod_eq_of_lt (show n < 2 ^ 16 by omega), Nat.mod_eq_of_lt (by omega)]
  rw [← BitVec.add_eq_or_of_and_eq_zero _ _ hdisjoint, BitVec.toNat_add, hfield,
    Nat.mod_eq_of_lt hsum]

/-- The same for a field at bit 0. -/
theorem toNat_or_field_zero {a : Word} {n k : Nat} (hn : n < 2 ^ k) (ha : a.toNat % 2 ^ k = 0)
    (hsum : a.toNat + n < 2 ^ 16) : (a ||| BitVec.ofNat 16 n).toNat = a.toNat + n := by
  simpa using toNat_or_field (j := 0) hn (by simpa using ha) (by simpa using hsum)

/-- The encoder writes the number of a well-formed instruction (R89). -/
theorem encode_toNat {i : Instr} (hwf : i.wf = true) : (encode i).toNat = i.number := by
  cases i with
  | nop => rfl
  | ret => rfl
  | jp nnn | call nnn =>
    have hn : nnn < 2 ^ 12 := by simpa [Instr.wf] using hwf
    exact toNat_or_field_zero hn rfl (by simp; omega)
  | se x kk =>
    obtain ⟨hx, hk⟩ : x < 2 ^ 4 ∧ kk < 2 ^ 8 := by simpa [Instr.wf] using hwf
    have hhigh : (0x3000 ||| BitVec.ofNat 16 x <<< 8 : Word).toNat = 0x3000 + x * 256 :=
      toNat_or_field hx rfl (by simp; omega)
    exact (toNat_or_field_zero hk (by omega) (by omega)).trans (congrArg (· + kk) hhigh)
  | add x y =>
    obtain ⟨hx, hy⟩ : x < 2 ^ 4 ∧ y < 2 ^ 4 := by simpa [Instr.wf] using hwf
    have hhigh : (0x8004 ||| BitVec.ofNat 16 x <<< 8 : Word).toNat = 0x8004 + x * 256 :=
      toNat_or_field hx rfl (by simp; omega)
    exact (toNat_or_field hy (by omega) (by omega)).trans (congrArg (· + y * 16) hhigh)

/-! ## What a word selects -/

/-- A statement about the rows of RC6, row by row. -/
theorem rc6_cases {motive : (op : Op (Option Instr)) → op ∈ rc6 → Prop}
    (nop : ∀ h, motive opNop h) (ret : ∀ h, motive opRet h) (jp : ∀ h, motive opJp h)
    (call : ∀ h, motive opCall h) (se : ∀ h, motive opSe h) (add : ∀ h, motive opAdd h)
    (op : Op (Option Instr)) (hop : op ∈ rc6) : motive op hop := by
  have hrow := hop
  simp only [rc6, List.mem_cons, List.not_mem_nil, or_false] at hrow
  rcases hrow with rfl | rfl | rfl | rfl | rfl | rfl
  exacts [nop hop, ret hop, jp hop, call hop, se hop, add hop]

/-- The rows of RC6 exclude each other: a matching row is the only one (R140). -/
theorem filter_rc6_of_matches {op : Op (Option Instr)} {w : Word} (hop : op ∈ rc6)
    (hw : op.matchesWord w = true) : rc6.filter (fun op => op.matchesWord w) = [op] := by
  cases op, hop using rc6_cases <;>
    simp only [matches_nop, matches_ret, matches_jp, matches_call, matches_se, matches_add,
      decide_eq_true_eq] at hw <;>
    simp (disch := omega) only [rc6, List.filter_cons, List.filter_nil, matches_nop, matches_ret,
      matches_jp, matches_call, matches_se, matches_add, decide_eq_true_eq, if_pos, if_neg]

/-- A row gets as many operand values as its behaviour takes. -/
theorem execute_decodeOperands_isSome {op : Op (Option Instr)} (hop : op ∈ rc6) (w : Word) :
    ∃ i, op.execute (decodeOperands op w) = some i := by
  cases op, hop using rc6_cases <;> exact ⟨_, rfl⟩

/-- A word is decoded by the row it matches (R134, R135). -/
theorem decode_of_matches {op : Op (Option Instr)} {w : Word} {i : Instr} (hop : op ∈ rc6)
    (hw : op.matchesWord w = true) (hi : op.execute (decodeOperands op w) = some i) :
    decode w = .ok i := by
  simp [decode, dispatch, filter_rc6_of_matches hop hw, hi]

/-- A word that matches no row is illegal (R87, R135). -/
theorem decode_of_no_match {w : Word} (h : ¬ ∃ op ∈ rc6, op.matchesWord w = true) :
    decode w = .error (.unknownOpcode w) := by
  have hnil : rc6.filter (fun op => op.matchesWord w) = [] :=
    List.filter_eq_nil_iff.mpr fun op hop hw => h ⟨op, hop, hw⟩
  simp [decode, dispatch, hnil]

/-- What decode can answer: the instruction of the row the word matches, or that the word is unknown. -/
theorem decode_cases (w : Word) :
    (∃ op ∈ rc6, op.matchesWord w = true ∧
      ∃ i, op.execute (decodeOperands op w) = some i ∧ decode w = .ok i) ∨
    (¬ ∃ op ∈ rc6, op.matchesWord w = true) ∧ decode w = .error (.unknownOpcode w) := by
  by_cases h : ∃ op ∈ rc6, op.matchesWord w = true
  · obtain ⟨op, hop, hw⟩ := h
    obtain ⟨i, hi⟩ := execute_decodeOperands_isSome hop w
    exact .inl ⟨op, hop, hw, i, hi, decode_of_matches hop hw hi⟩
  · exact .inr ⟨h, decode_of_no_match h⟩

/-- The illegal words are those that match no row. -/
theorem decode_eq_unknownOpcode_iff (w : Word) :
    decode w = .error (.unknownOpcode w) ↔ ¬ ∃ op ∈ rc6, op.matchesWord w = true := by
  obtain ⟨op, hop, hw, i, -, hd⟩ | ⟨hno, hd⟩ := decode_cases w
  · exact iff_of_false (by simp [hd]) (not_not_intro ⟨op, hop, hw⟩)
  · exact iff_of_true hd hno

/-- No word of RC6 is ambiguous (R140). -/
theorem decode_ne_ambiguousOpcode (w v : Word) : decode w ≠ .error (.ambiguousOpcode v) := by
  obtain ⟨_, _, _, i, _, hd⟩ | ⟨_, hd⟩ := decode_cases w <;> simp [hd]

/-- The words the rows of the table match, as R87 lists them. -/
theorem matches_rc6_iff (w : Word) :
    (∃ op ∈ rc6, op.matchesWord w = true) ↔
      w.toNat = 0 ∨ w.toNat = 0xee ∨ (0x1000 ≤ w.toNat ∧ w.toNat ≤ 0x3fff) ∨
        (0x8000 ≤ w.toNat ∧ w.toNat ≤ 0x8fff ∧ w.toNat % 16 = 4) := by
  simp only [rc6, List.exists_mem_cons_iff, List.not_mem_nil, false_and, exists_false, or_false,
    matches_nop, matches_ret, matches_jp, matches_call, matches_se, matches_add, decide_eq_true_eq]
  omega

/-! ## From an instruction to its word and back -/

theorem row_mem_rc6 (i : Instr) : i.row ∈ rc6 := by cases i <;> simp [Instr.row, rc6]

/-- A row makes the instruction it is the row of out of that instruction's operand values. -/
theorem execute_operandValues (i : Instr) : i.row.execute i.operandValues = some i := by
  cases i <;> rfl

/-- The encoding of a well-formed instruction matches the instruction's row (R86, R133). -/
theorem encode_matches_row {i : Instr} (hwf : i.wf = true) :
    i.row.matchesWord (encode i) = true := by
  cases i with
  | nop => exact Laws.EncodeSelectsRow.nop hwf
  | ret => exact Laws.EncodeSelectsRow.ret hwf
  | jp nnn => exact Laws.EncodeSelectsRow.jp nnn hwf
  | call nnn => exact Laws.EncodeSelectsRow.call nnn hwf
  | se x kk => exact Laws.EncodeSelectsRow.se x kk hwf
  | add x y => exact Laws.EncodeSelectsRow.add x y hwf

/-- The fields of an encoding hold the operand values that were put in (R89, R134). -/
theorem decodeOperands_encode {i : Instr} (hwf : i.wf = true) :
    decodeOperands i.row (encode i) = i.operandValues := by
  have hnum := encode_toNat hwf
  cases i with
  | nop => rfl
  | ret => rfl
  | jp nnn | call nnn =>
    have hn : nnn < 4096 := by simpa [Instr.wf] using hwf
    simp only [Instr.row, Instr.operandValues, decodeOperands_opJp, decodeOperands_opCall, hnum,
      Instr.number, List.cons.injEq, and_true]
    omega
  | se x kk =>
    obtain ⟨hx, hk⟩ : x < 16 ∧ kk < 256 := by simpa [Instr.wf] using hwf
    simp only [Instr.row, Instr.operandValues, decodeOperands_opSe, hnum, Instr.number,
      List.cons.injEq, and_true]
    omega
  | add x y =>
    obtain ⟨hx, hy⟩ : x < 16 ∧ y < 16 := by simpa [Instr.wf] using hwf
    simp only [Instr.row, Instr.operandValues, decodeOperands_opAdd, hnum, Instr.number,
      List.cons.injEq, and_true]
    omega

/-- What a row makes of a word it matches is well formed and has that word's number: the row's fixed
bits and its fields are the whole word (R83, R86). -/
theorem wf_and_number_of_matches {op : Op (Option Instr)} {w : Word} {i : Instr} (hop : op ∈ rc6)
    (hw : op.matchesWord w = true) (hi : op.execute (decodeOperands op w) = some i) :
    i.wf = true ∧ i.number = w.toNat := by
  have hlt := w.isLt
  cases op, hop using rc6_cases with
  | nop =>
    cases hi
    exact ⟨rfl, (of_decide_eq_true (matches_nop w ▸ hw)).symm⟩
  | ret =>
    cases hi
    exact ⟨rfl, (of_decide_eq_true (matches_ret w ▸ hw)).symm⟩
  | jp | call =>
    simp only [matches_jp, matches_call, decide_eq_true_eq] at hw
    simp only [decodeOperands_opJp, decodeOperands_opCall] at hi
    cases hi
    simp only [Instr.wf, Instr.number, decide_eq_true_eq]
    omega
  | se =>
    simp only [matches_se, decide_eq_true_eq] at hw
    rw [decodeOperands_opSe] at hi
    cases hi
    simp only [Instr.wf, Instr.number, Bool.and_eq_true, decide_eq_true_eq]
    omega
  | add =>
    simp only [matches_add, decide_eq_true_eq] at hw
    rw [decodeOperands_opAdd] at hi
    cases hi
    simp only [Instr.wf, Instr.number, Bool.and_eq_true, decide_eq_true_eq]
    omega

/-! ## The obligations -/

/-- Settles O2: the encoding matches the instruction's own row, and its fields hold the operands. -/
theorem decodeOfEncodeIsTheInstruction : Obligations.DecodeOfEncodeIsTheInstruction := by
  intro i hwf
  refine decode_of_matches (row_mem_rc6 i) (encode_matches_row hwf) ?_
  rw [decodeOperands_encode hwf, execute_operandValues]

/-- Settles O3: the instruction a word decodes to has that word's number, and so that word. -/
theorem encodeOfDecodeIsTheWord : Obligations.EncodeOfDecodeIsTheWord := by
  intro w i h
  obtain ⟨op, hop, hw, j, hj, hd⟩ | ⟨-, hd⟩ := decode_cases w
  · obtain rfl : j = i := Except.ok.inj (hd.symm.trans h)
    obtain ⟨hwf, hnum⟩ := wf_and_number_of_matches hop hw hj
    exact ⟨hwf, BitVec.eq_of_toNat_eq ((encode_toNat hwf).trans hnum)⟩
  · rw [hd] at h; cases h

/-- Settles O4: the words that match a row are those listed, and no word matches two. -/
theorem illegalWordsAreExactlyThoseListed : Obligations.IllegalWordsAreExactlyThoseListed := by
  intro w
  exact ⟨(decode_eq_unknownOpcode_iff w).trans (not_congr (matches_rc6_iff w)),
    decode_ne_ambiguousOpcode w⟩

/-- Settles O1: twelve closed words, evaluated. -/
theorem specWordsDecodeAsListed : Obligations.SpecWordsDecodeAsListed := by
  unfold Obligations.SpecWordsDecodeAsListed
  decide

end Sys2Proof
end

