-- ==== Sys2Proof/Proofs/Arithmetic.lean ====
section
/-! PROOFS. The fixed-width arithmetic block (40_fixed_width_arithmetic.md R111 to R117): the cast is the
residue a `BitVec` of that width holds, and the flag says that the true result is outside `[0, 2^w)`. -/

namespace Sys2Proof.Machine

/-! ## The cast (R111) -/

/-- The cast takes off a multiple of `2^w`. -/
theorem sub_castTo (n : Int) (w : Nat) : n - castTo n w = n / 2 ^ w * 2 ^ w :=
  sub_eq_of_eq_add (Int.ediv_mul_add_emod n (2 ^ w)).symm

/-- The cast of a value in range is that value. -/
theorem castTo_of_mem {n : Int} {w : Nat} (h0 : 0 ≤ n) (hlt : n < 2 ^ w) : castTo n w = n :=
  (castTo_eq_self_iff n w).mpr ⟨h0, hlt⟩

@[simp] theorem castTo_castTo (n : Int) (w : Nat) : castTo (castTo n w) w = castTo n w :=
  Int.emod_emod n _

@[simp] theorem castTo_two_pow (w : Nat) : castTo (2 ^ w) w = 0 := Int.emod_self

@[simp] theorem castTo_neg_two_pow (w : Nat) : castTo (-(2 ^ w)) w = 0 := Int.neg_emod_self _

/-- The cast does not see a full `2^w`. -/
@[simp] theorem castTo_add_two_pow (n : Int) (w : Nat) : castTo (n + 2 ^ w) w = castTo n w :=
  Int.add_emod_right n _

/-- The cast of `-1` is the largest value of `w` bits. -/
@[simp] theorem castTo_neg_one (w : Nat) : castTo (-1) w = 2 ^ w - 1 := by
  have hpos : (0 : Int) < 2 ^ w := by positivity
  calc castTo (-1) w = castTo (-1 + 2 ^ w) w := (castTo_add_two_pow (-1) w).symm
    _ = -1 + 2 ^ w := castTo_of_mem (by omega) (by omega)
    _ = 2 ^ w - 1 := neg_add_eq_sub 1 (2 ^ w)

/-- The cast is the value of the low `w` bits of the two's complement. -/
theorem castTo_eq_toNat_ofInt (n : Int) (w : Nat) : castTo n w = (BitVec.ofInt w n).toNat := by
  have hnonneg : 0 ≤ n % ((2 ^ w : Nat) : Int) := Int.emod_nonneg n (by positivity)
  rw [BitVec.toNat_ofInt, Int.toNat_of_nonneg hnonneg, castTo, Nat.cast_pow, Nat.cast_ofNat]

/-! ## The sum and the difference of `w`-bit operands -/

/-- A `BitVec` is read back from its value. -/
theorem ofInt_toNat {w : Nat} (a : BitVec w) : BitVec.ofInt w a.toNat = a := by
  rw [BitVec.ofInt_natCast, BitVec.ofNat_toNat, BitVec.setWidth_eq]

/-- The cast of a sum is the sum modulo `2^w`. -/
theorem castTo_toNat_add {w : Nat} (a b : BitVec w) :
    castTo (a.toNat + b.toNat) w = (a + b).toNat := by
  rw [castTo_eq_toNat_ofInt, BitVec.ofInt_add, ofInt_toNat, ofInt_toNat]

/-- The cast of a difference is the difference modulo `2^w`. -/
theorem castTo_toNat_sub {w : Nat} (a b : BitVec w) :
    castTo (a.toNat - b.toNat) w = (a - b).toNat := by
  rw [castTo_eq_toNat_ofInt, sub_eq_add_neg, BitVec.ofInt_add, BitVec.ofInt_neg, ofInt_toNat,
    ofInt_toNat, BitVec.sub_eq_add_neg]

/-! ## The flag (R113, R117) -/

/-- `wrap` raises OVERFLOW exactly when the true value is out of range. -/
theorem wrap_overflow_iff (n : Int) (w : Nat) :
    (wrap n w).2 = .overflow ↔ n < 0 ∨ 2 ^ w ≤ n := by
  rw [wrap_flag]
  split
  case isTrue hin => exact iff_of_false (by decide) (by omega)
  case isFalse hout => exact iff_of_true rfl (by omega)

/-- On operands in range the sum is not negative, so only its upper bound raises the flag. -/
theorem addWrap_overflow_iff {w : Nat} (a b : BitVec w) :
    (addWrap a.toNat b.toNat w).2 = .overflow ↔ 2 ^ w ≤ a.toNat + b.toNat := by
  have hnonneg : ¬ (a.toNat + b.toNat : Int) < 0 := by omega
  rw [addWrap, wrap_overflow_iff, or_iff_right hnonneg]
  norm_cast

/-- A difference of values in range stays below `2^w`. -/
theorem toNat_sub_lt_two_pow {w : Nat} (a b : BitVec w) : (a.toNat : Int) - b.toNat < 2 ^ w := by
  have ha : (a.toNat : Int) < 2 ^ w := by exact_mod_cast a.isLt
  omega

/-- On operands in range only a negative difference, a borrow, raises the flag. -/
theorem subWrap_overflow_iff {w : Nat} (a b : BitVec w) :
    (subWrap a.toNat b.toNat w).2 = .overflow ↔ a.toNat < b.toNat := by
  rw [subWrap, wrap_overflow_iff, or_iff_left (not_le.mpr (toNat_sub_lt_two_pow a b)), sub_neg,
    Nat.cast_lt]

/-- There is a carry out of the top bit exactly when the sum reaches `2^w`. -/
theorem carry_eq_true_iff {w : Nat} (a b : BitVec w) :
    BitVec.carry w a b false = true ↔ 2 ^ w ≤ a.toNat + b.toNat := by
  simp [BitVec.carry]

/-! ## The obligations -/

/-- Settles O13: each clause is a law of the cast. -/
theorem castIsTheFlooredModulus : Obligations.CastIsTheFlooredModulus := by
  intro n w
  obtain ⟨hnonneg, hlt⟩ := castTo_mem n w
  exact ⟨hnonneg, hlt, ⟨n / 2 ^ w, sub_castTo n w⟩, castTo_of_mem, castTo_eq_toNat_ofInt n w,
    castTo_castTo n w, castTo_two_pow w, castTo_neg_one w, castTo_neg_two_pow w⟩

/-- Settles O14: `add` and `sub` are `wrap` of the true sum and difference. -/
theorem overflowExactlyWhenTheTrueResultIsOutOfRange :
    Obligations.OverflowExactlyWhenTheTrueResultIsOutOfRange := by
  intro a b n w
  exact ⟨⟨rfl, wrap_overflow_iff n w⟩, ⟨rfl, wrap_overflow_iff (a + b) w⟩,
    ⟨rfl, wrap_overflow_iff (a - b) w⟩⟩

/-- Settles O15: of the two bounds of the range, operands in range can pass only the upper one in a sum
and only the lower one in a difference. -/
theorem flagIsTheUnsignedCarryOrBorrow : Obligations.FlagIsTheUnsignedCarryOrBorrow := by
  refine ⟨fun w a b => ?operands, ?concrete⟩
  case operands =>
    exact ⟨castTo_toNat_add a b, (addWrap_overflow_iff a b).trans (carry_eq_true_iff a b).symm,
      addWrap_overflow_iff a b, castTo_toNat_sub a b, subWrap_overflow_iff a b, by positivity,
      toNat_sub_lt_two_pow a b⟩
  case concrete => decide

end Sys2Proof.Machine
end

