-- ==== Sys2Proof/Proofs/DecodeDispatch.lean ====
section
/-! PROOFS. The decode path (41_decode_dispatch.md R130 to R142): what a mask extracts, bit by bit and as
a field; what dispatch answers, by the list of the Ops that match; that the overlap formula is about
words, so that a valid catalog is never ambiguous; and the decoder by digits. -/

namespace Sys2Proof

/-! ## The alignment of a mask (R12) -/

/-- The search behind `ctz` stops at the lowest set bit of a mask that has one. -/
theorem find?_range_eq_some_ctz {mask : Word} (hmask : mask ≠ 0) :
    (List.range 16).find? (fun i => mask.getLsbD i) = some (ctz mask) := by
  cases hfind : (List.range 16).find? (fun i => mask.getLsbD i) with
  | some i => simp [ctz, hfind]
  | none =>
    have hclear : ∀ i < 16, mask.getLsbD i = false := by simpa using hfind
    exact absurd (BitVec.eq_of_getLsbD_eq fun i hi => by simp [hclear i hi]) hmask

/-- The bit at `ctz` is set, and no lower bit is. -/
theorem getLsbD_ctz {mask : Word} (hmask : mask ≠ 0) :
    mask.getLsbD (ctz mask) = true ∧ ∀ j < ctz mask, mask.getLsbD j = false := by
  obtain ⟨hset, -, hbelow⟩ := List.find?_range_eq_some.mp (find?_range_eq_some_ctz hmask)
  exact ⟨hset, fun j hj => by simpa using hbelow j hj⟩

/-! ## What a mask extracts (R130, R131) -/

/-- A zero mask extracts 0. -/
theorem extract_zero_mask (w : Word) : extract w 0 = 0 := by simp [extract]

/-- Extraction, bit by bit. -/
theorem testBit_extract (w mask : Word) (i : Nat) :
    (extract w mask).testBit i =
      (w.getLsbD (i + ctz mask) && mask.getLsbD (i + ctz mask)) := by
  rw [extract, BitVec.testBit_toNat, BitVec.getLsbD_ushiftRight, BitVec.getLsbD_and, Nat.add_comm]

/-- The AND only takes bits away from the mask, and the shift is monotone. -/
theorem extract_le (w mask : Word) : extract w mask ≤ (mask >>> ctz mask).toNat := by
  simp only [extract, BitVec.toNat_ushiftRight, BitVec.toNat_and, Nat.shiftRight_eq_div_pow]
  exact Nat.div_le_div_right Nat.and_le_right

/-! ## What dispatch answers (R135) -/

section
variable {β : Type} (catalog : List (Op β)) (w : Word)

/-- The three outcomes of dispatch, each with the list of the Ops that match. -/
theorem dispatch_cases :
    (catalog.filter (fun op => op.matchesWord w) = [] ∧
      dispatch catalog w = .error (.unknownOpcode w)) ∨
    (∃ op, catalog.filter (fun op => op.matchesWord w) = [op] ∧ dispatch catalog w = .ok op) ∨
    (∃ a b rest, catalog.filter (fun op => op.matchesWord w) = a :: b :: rest ∧
      dispatch catalog w = .error (.ambiguousOpcode w)) := by
  cases hmatch : catalog.filter (fun op => op.matchesWord w) with
  | nil => exact .inl ⟨rfl, by rw [dispatch_eq, hmatch]⟩
  | cons a rest =>
    cases rest with
    | nil => exact .inr (.inl ⟨a, rfl, by rw [dispatch_eq, hmatch]⟩)
    | cons b rest => exact .inr (.inr ⟨a, b, rest, rfl, by rw [dispatch_eq, hmatch]⟩)

/-- An Op is returned exactly when it is the whole list of matches. -/
theorem dispatch_eq_ok_iff (op : Op β) :
    dispatch catalog w = .ok op ↔ catalog.filter (fun o => o.matchesWord w) = [op] := by
  obtain ⟨hf, hd⟩ | ⟨o, hf, hd⟩ | ⟨a, b, rest, hf, hd⟩ := dispatch_cases catalog w <;>
    simp [hf, hd]

/-- The word is unknown exactly when no Op matches. -/
theorem dispatch_eq_unknownOpcode_iff :
    dispatch catalog w = .error (.unknownOpcode w) ↔
      catalog.filter (fun o => o.matchesWord w) = [] := by
  obtain ⟨hf, hd⟩ | ⟨o, hf, hd⟩ | ⟨a, b, rest, hf, hd⟩ := dispatch_cases catalog w <;>
    simp [hf, hd]

/-- The word is ambiguous exactly when two or more Ops match. -/
theorem dispatch_eq_ambiguousOpcode_iff :
    dispatch catalog w = .error (.ambiguousOpcode w) ↔
      2 ≤ (catalog.filter fun o => o.matchesWord w).length := by
  obtain ⟨hf, hd⟩ | ⟨o, hf, hd⟩ | ⟨a, b, rest, hf, hd⟩ := dispatch_cases catalog w <;>
    simp [hf, hd]

/-- Reordering the catalog reorders the list of matches, which keeps each of the three outcomes. -/
theorem dispatch_perm {catalog reordered : List (Op β)} (hperm : catalog.Perm reordered) :
    dispatch reordered w = dispatch catalog w := by
  have hmatches := hperm.filter fun op => op.matchesWord w
  obtain ⟨hf, hd⟩ | ⟨op, hf, hd⟩ | ⟨a, b, rest, hf, hd⟩ := dispatch_cases catalog w
  · rw [hf, List.nil_perm] at hmatches
    rw [hd, dispatch_eq_unknownOpcode_iff, hmatches]
  · rw [hf, List.singleton_perm] at hmatches
    rw [hd, dispatch_eq_ok_iff, hmatches]
  · rw [hd, dispatch_eq_ambiguousOpcode_iff, ← hmatches.length_eq, hf]
    simp

end

/-! ## The decoder by digits (R141) -/

/-- A word that matches a row has the digits of that row. -/
theorem decodeByDigits_of_matches {op : Op (Option Instr)} {w : Word} {i : Instr} (hop : op ∈ rc6)
    (hw : op.matchesWord w = true) (hi : op.execute (decodeOperands op w) = some i) :
    decodeByDigits w = .ok i := by
  cases op, hop using rc6_cases with
  | nop =>
    rw [matches_nop, decide_eq_true_eq] at hw
    cases hi
    simp [decodeByDigits, hw]
  | ret =>
    rw [matches_ret, decide_eq_true_eq] at hw
    cases hi
    simp [decodeByDigits, hw]
  | jp | call =>
    simp only [matches_jp, matches_call, decide_eq_true_eq] at hw
    simp only [decodeOperands_opJp, decodeOperands_opCall] at hi
    cases hi
    simp only [decodeByDigits, hw]
  | se =>
    rw [matches_se, decide_eq_true_eq] at hw
    rw [decodeOperands_opSe] at hi
    cases hi
    simp only [decodeByDigits, hw]
  | add =>
    rw [matches_add, decide_eq_true_eq] at hw
    obtain ⟨hfirst, hlast⟩ := hw
    rw [decodeOperands_opAdd] at hi
    cases hi
    simp only [decodeByDigits, hfirst, hlast, if_true]

/-- A word that matches no row has the digits of none. -/
theorem decodeByDigits_of_no_match {w : Word} (h : ¬ ∃ op ∈ rc6, op.matchesWord w = true) :
    decodeByDigits w = .error (.unknownOpcode w) := by
  rw [matches_rc6_iff] at h
  simp only [decodeByDigits]
  split
  case h_1 => rw [if_neg (by omega), if_neg (by omega)]
  case h_5 => rw [if_neg (by omega)]
  case h_6 => rfl
  all_goals omega

/-! ## The obligations on extraction, dispatch and the decoder by digits -/

/-- Settles O8: the three outcomes by the list of matches, which a reordering only permutes. -/
theorem dispatchFindsTheOneMatchingOp : Obligations.DispatchFindsTheOneMatchingOp := by
  intro β catalog w
  refine ⟨dispatch_eq_ok_iff catalog w, ?unknown, dispatch_eq_ambiguousOpcode_iff catalog w,
    fun _ => dispatch_perm w⟩
  case unknown => simp [dispatch_eq_unknownOpcode_iff, List.filter_eq_nil_iff]

/-- Settles O5: the two decoders agree on the words that match a row, and on those that match none. -/
theorem digitDecoderAgreesWithTheScan : Obligations.DigitDecoderAgreesWithTheScan := by
  intro w
  obtain ⟨op, hop, hw, i, hi, hd⟩ | ⟨hno, hd⟩ := decode_cases w
  · rw [hd, decodeByDigits_of_matches hop hw hi]
  · rw [hd, decodeByDigits_of_no_match hno]

/-- Settles O6: a run extracts its field, and the AND only takes bits away. -/
theorem extractGivesTheFieldRightAligned : Obligations.ExtractGivesTheFieldRightAligned :=
  ⟨fun w _ _ => extract_run w, extract_le⟩

/-- Settles O7: extraction bit by bit, at the alignment `ctz` finds. -/
theorem zeroAndGappedMasksAreAppliedAsWritten :
    Obligations.ZeroAndGappedMasksAreAppliedAsWritten :=
  ⟨extract_zero_mask, testBit_extract, fun _ => getLsbD_ctz, by decide, by decide⟩

end Sys2Proof

namespace Sys2Proof.Machine

/-! ## Overlap (R137) -/

section
variable {β : Type} {a b : Op β} {w : Word}

/-- A word matches an Op when it has the pattern's bits where the Op fixes one, and the pattern no
other bit (R133). -/
theorem matchesWord_iff :
    a.matchesWord w = true ↔
      ∀ i < 16, (w.getLsbD i && a.fixed.getLsbD i) = a.pattern.getLsbD i := by
  rw [Op.matchesWord, beq_iff_eq, BitVec.eq_of_getLsbD_eq_iff]
  simp only [BitVec.getLsbD_and]

/-- The overlap formula, bit by bit: the patterns agree on every bit that both Ops fix. -/
theorem opsOverlap_iff :
    opsOverlap a b = true ↔
      ∀ i < 16, a.fixed.getLsbD i = true → b.fixed.getLsbD i = true →
        a.pattern.getLsbD i = b.pattern.getLsbD i := by
  rw [opsOverlap, decide_eq_true_iff, BitVec.eq_of_getLsbD_eq_iff]
  refine forall₂_congr fun i _ => ?_
  simp only [BitVec.getLsbD_and, BitVec.getLsbD_xor, BitVec.ofNat_eq_ofNat, BitVec.getLsbD_zero]
  cases a.fixed.getLsbD i <;> cases b.fixed.getLsbD i <;> simp

/-- The overlap formula does not look at the order of the two Ops. -/
theorem opsOverlap_comm : opsOverlap a b = true ↔ opsOverlap b a = true := by
  rw [opsOverlap_iff, opsOverlap_iff]
  exact forall₂_congr fun i _ => ⟨fun h hb ha => (h ha hb).symm, fun h ha hb => (h hb ha).symm⟩

/-- The pattern of a well-formed Op is 0 where the Op fixes no bit (R83 (c)). -/
theorem pattern_eq_false_of_not_fixed (ha : opWellFormed a = true) {i : Nat} (hi : i < 16)
    (hfree : a.fixed.getLsbD i = false) : a.pattern.getLsbD i = false := by
  simp only [opWellFormed, Bool.and_eq_true, decide_eq_true_eq] at ha
  obtain ⟨-, hpattern⟩ := ha
  have hbit : (a.pattern &&& ~~~a.fixed).getLsbD i = false := by
    rw [hpattern, BitVec.ofNat_eq_ofNat, BitVec.getLsbD_zero]
  rwa [BitVec.getLsbD_and, BitVec.getLsbD_not, hfree, decide_eq_true hi, Bool.not_false,
    Bool.and_true, Bool.and_true] at hbit

/-- A word that matches both Ops has the bit of either pattern wherever both fix one. -/
theorem opsOverlap_of_matches (ha : a.matchesWord w = true) (hb : b.matchesWord w = true) :
    opsOverlap a b = true := by
  rw [opsOverlap_iff]
  intro i hi hfixa hfixb
  rw [← matchesWord_iff.mp ha i hi, ← matchesWord_iff.mp hb i hi, hfixa, hfixb]

/-- The union of the patterns of two well-formed Ops that overlap matches the first: where it alone
fixes a bit the other pattern is 0, and where both fix one the patterns agree (R137). -/
theorem matches_pattern_or (ha : opWellFormed a = true) (hb : opWellFormed b = true)
    (hover : opsOverlap a b = true) : a.matchesWord (a.pattern ||| b.pattern) = true := by
  rw [matchesWord_iff]
  intro i hi
  rw [BitVec.getLsbD_or]
  cases hfixa : a.fixed.getLsbD i with
  | false => simp [pattern_eq_false_of_not_fixed ha hi hfixa]
  | true =>
    cases hfixb : b.fixed.getLsbD i with
    | false => simp [pattern_eq_false_of_not_fixed hb hi hfixb]
    | true => simp [opsOverlap_iff.mp hover i hi hfixa hfixb]

end

/-! ## A valid catalog (R138, R140) -/

/-- No two Ops at different positions of a valid catalog overlap (R138 (b)). -/
theorem pairwise_not_overlap {β : Type} {c : Config} {catalog : List (Op β)}
    (hvalid : validCatalog c catalog = true) :
    catalog.Pairwise fun a b => opsOverlap a b = false := by
  simp only [validCatalog, Bool.and_eq_true, decide_eq_true_eq] at hvalid
  obtain ⟨⟨-, hdisjoint⟩, -⟩ := hvalid
  exact hdisjoint

/-- Two hits of a valid catalog would be two of its Ops that overlap (R140). -/
theorem matches_ne_cons_cons {β : Type} {c : Config} {catalog : List (Op β)}
    (hvalid : validCatalog c catalog = true) (w : Word) (a b : Op β) (rest : List (Op β)) :
    catalog.filter (fun op => op.matchesWord w) ≠ a :: b :: rest := by
  intro hf
  have hmatch : ∀ op ∈ a :: b :: rest, op.matchesWord w = true := by
    rw [← hf]
    exact fun op hop => (List.mem_filter.mp hop).2
  have hdisjoint := (pairwise_not_overlap hvalid).filter fun op => op.matchesWord w
  rw [hf, List.pairwise_cons_cons] at hdisjoint
  have hover : opsOverlap a b = true :=
    opsOverlap_of_matches (hmatch a (by simp)) (hmatch b (by simp))
  exact absurd hover (by simp [hdisjoint.1])

/-! ## The obligations on overlap and validation -/

/-- Settles O9: a word that matches both shows that the patterns agree; the union of patterns that agree
matches both. -/
theorem overlapExactlyWhenAWordMatchesBoth : Obligations.OverlapExactlyWhenAWordMatchesBoth := by
  intro β a b ha hb
  refine ⟨fun hover => ⟨a.pattern ||| b.pattern, matches_pattern_or ha hb hover, ?second⟩,
    fun ⟨_, hwa, hwb⟩ => opsOverlap_of_matches hwa hwb⟩
  case second =>
    rw [BitVec.or_comm]
    exact matches_pattern_or hb ha (opsOverlap_comm.mp hover)

/-- Settles O10: an ambiguous word would have two hits, which validation excludes. -/
theorem validCatalogIsNeverAmbiguous : Obligations.ValidCatalogIsNeverAmbiguous := by
  intro β c catalog hvalid w v h
  obtain ⟨-, hd⟩ | ⟨_, -, hd⟩ | ⟨a, b, rest, hf, -⟩ := dispatch_cases catalog w
  · rw [hd] at h; cases h
  · rw [hd] at h; cases h
  · exact matches_ne_cons_cons hvalid w a b rest hf

end Sys2Proof.Machine
end

