-- ==== Sys2Proof/Proofs/ContextPrimitives.lean ====
section
/-! PROOFS. The primitives of the execution context (42_context_primitives.md R150 to R166): the register
ports, the call stack, the pc; that no behaviour writes the control state; and that none sees it, by a
simulation: running a behaviour commutes with replacing `loaded`, `PLEN`, `RS` and `FR`. -/

namespace Sys2Proof.Machine

/-! ## The register ports (R151 to R153) -/

/-- The registers that exist (R151). -/
theorem hasReg_iff (c : Config) (i : Int) :
    hasReg c i = true ↔ 0 ≤ i ∧ i ≤ (c.nreg : Int) - 1 := by
  simp [hasReg]

theorem hasReg_eq_false {c : Config} {i : Int} (h : i < 0 ∨ (c.nreg : Int) - 1 < i) :
    hasReg c i = false := by
  rw [Bool.eq_false_iff, ne_eq, hasReg_iff]
  omega

theorem readReg_inside {c : Config} (s : State) {i : Int} (h0 : 0 ≤ i)
    (hlast : i ≤ (c.nreg : Int) - 1) : readReg c s i = .ok (s.regs.getD i.toNat 0) :=
  if_pos ((hasReg_iff c i).2 ⟨h0, hlast⟩)

theorem readReg_outside {c : Config} (s : State) {i : Int} (h : i < 0 ∨ (c.nreg : Int) - 1 < i) :
    readReg c s i = .error (.registerOutOfRange i) := by
  simp [readReg, hasReg_eq_false h]

theorem writeReg_inside {c : Config} (s : State) {i : Int} (v : Int) (h0 : 0 ≤ i)
    (hlast : i ≤ (c.nreg : Int) - 1) :
    writeReg c s i v = .ok (s.setReg i.toNat (byteOfInt v)) :=
  if_pos ((hasReg_iff c i).2 ⟨h0, hlast⟩)

theorem writeReg_outside {c : Config} (s : State) {i : Int} (v : Int)
    (h : i < 0 ∨ (c.nreg : Int) - 1 < i) : writeReg c s i v = .error (.registerOutOfRange i) := by
  simp [writeReg, hasReg_eq_false h]

/-- A read of the register that was set gives the byte it was set to (R152). -/
theorem readReg_setReg_same {c : Config} {s : State} (hlen : s.regs.length = c.nreg) {i : Int}
    (b : Byte) (h0 : 0 ≤ i) (hlast : i ≤ (c.nreg : Int) - 1) :
    readReg c (s.setReg i.toNat b) i = .ok b := by
  rw [readReg_inside _ h0 hlast, setReg_regs, getD_set _ _ _ _ (by omega), if_pos rfl]

/-- A read of any other index, inside the file or outside, is as it was (R152). -/
theorem readReg_setReg_ne {c : Config} {s : State} (hlen : s.regs.length = c.nreg) {i j : Int}
    (b : Byte) (h0 : 0 ≤ i) (hlast : i ≤ (c.nreg : Int) - 1) (hne : j ≠ i) :
    readReg c (s.setReg i.toNat b) j = readReg c s j := by
  by_cases hin : 0 ≤ j ∧ j ≤ (c.nreg : Int) - 1
  · obtain ⟨hj0, hjlast⟩ := hin
    have hk : j.toNat ≠ i.toNat := by omega
    rw [readReg_inside _ hj0 hjlast, readReg_inside _ hj0 hjlast, setReg_regs,
      getD_set _ _ _ _ (by omega), if_neg hk]
  · have hout : j < 0 ∨ (c.nreg : Int) - 1 < j := by omega
    rw [readReg_outside _ hout, readReg_outside _ hout]

/-! ## The call stack (R155, R156) -/

theorem push_of_full {c : Config} {s : State} (v : Int) (h : s.stack.length = c.stackDepth) :
    push c s v = .error (.stackOverflow v) :=
  if_pos h

theorem push_of_room {c : Config} {s : State} (v : Int) (h : s.stack.length ≠ c.stackDepth) :
    push c s v = .ok (s.setStack (s.stack ++ [v])) :=
  if_neg h

theorem pop_of_eq_append {s : State} {older : List Int} {v : Int} (h : s.stack = older ++ [v]) :
    pop s = .ok (v, s.setStack older) := by
  simp [pop, h]

theorem pop_of_eq_nil {s : State} (h : s.stack = []) : pop s = .error .stackUnderflow := by
  simp [pop, h]

theorem top_of_eq_append {s : State} {older : List Int} {v : Int} (h : s.stack = older ++ [v]) :
    top s = some v := by
  simp [top, h]

theorem top_of_eq_nil {s : State} (h : s.stack = []) : top s = none := by
  simp [top, h]

/-! ## The pc (R162) -/

theorem hopBackwards_eq (s : State) (d : Int) :
    hopBackwards s d = { s with pc := s.pc - 2 * d } := by
  have hpc : s.pc + 2 * -d = s.pc - 2 * d := by omega
  exact congrArg (fun pc => { s with pc := pc }) hpc

/-! ## Running a behaviour at a register read, and what the execute phase makes of a refusal -/

theorem Behaviour.run_readReg_inside {c : Config} (s : State) {i : Int} (k : Byte → Behaviour)
    (h0 : 0 ≤ i) (hlast : i ≤ (c.nreg : Int) - 1) :
    (Behaviour.readReg i k).run c s = (k (s.regs.getD i.toNat 0)).run c s := by
  simp only [Behaviour.run, readReg_inside s h0 hlast]

theorem Behaviour.run_readReg_outside {c : Config} (s : State) {i : Int} (k : Byte → Behaviour)
    (h : i < 0 ∨ (c.nreg : Int) - 1 < i) :
    (Behaviour.readReg i k).run c s = .refused (.registerOutOfRange i) := by
  simp only [Behaviour.run, readReg_outside s h]

theorem executePhase_of_refused {c : Config} {w : Word} {b : Behaviour} {s : State} {r : Refusal}
    (h : b.run c (advance s) = .refused r) : executePhase c w b s = .refused r := by
  simp only [executePhase, h]

/-! ## The control state beside a behaviour (R150, R166) -/

/-- The state with the control fields `loaded`, `PLEN`, `RS` and `FR` of another. -/
def State.withControl (s ctl : State) : State :=
  { s with loaded := ctl.loaded, plen := ctl.plen, rs := ctl.rs, fr := ctl.fr }

/-- Two states that agree on the context differ in the control fields alone. -/
theorem State.sameContext.eq_withControl {s t : State} (h : s.sameContext t) :
    t = s.withControl t := by
  obtain ⟨hregs, hpc, hmem, hstack⟩ := h
  exact State.ext_fields hregs.symm hpc.symm hmem.symm hstack.symm rfl rfl rfl rfl

/-- An outcome with its next state, if it has one, changed by `f`. -/
def mapNext (f : State → State) :
    Host.Outcome State Fault Refusal → Host.Outcome State Fault Refusal
  | .next s => .next (f s)
  | .fault e => .fault e
  | .refused r => .refused r

section
variable (c : Config) (s ctl : State)

theorem readReg_withControl (i : Int) : readReg c (s.withControl ctl) i = readReg c s i := rfl

theorem memRead_withControl (a : Int) : memRead c (s.withControl ctl) a = memRead c s a := rfl

theorem memReadPair_withControl (a : Int) :
    memReadPair c (s.withControl ctl) a = memReadPair c s a := rfl

theorem writeReg_withControl (i v : Int) :
    writeReg c (s.withControl ctl) i v = (writeReg c s i v).map (·.withControl ctl) := by
  unfold writeReg
  split <;> rfl

theorem memWrite_withControl (a v : Int) :
    memWrite c (s.withControl ctl) a v = (memWrite c s a v).map (·.withControl ctl) := by
  unfold memWrite
  split <;> rfl

theorem push_withControl (v : Int) :
    push c (s.withControl ctl) v = (push c s v).map (·.withControl ctl) := by
  by_cases h : s.stack.length = c.stackDepth
  · rw [push_of_full v h, push_of_full (s := s.withControl ctl) v h]; rfl
  · rw [push_of_room v h, push_of_room (s := s.withControl ctl) v h]; rfl

theorem pop_withControl :
    pop (s.withControl ctl) = (pop s).map (Prod.map id (·.withControl ctl)) := by
  obtain h | ⟨older, v, h⟩ := s.stack.eq_nil_or_concat'
  · rw [pop_of_eq_nil h, pop_of_eq_nil (s := s.withControl ctl) h]; rfl
  · rw [pop_of_eq_append h, pop_of_eq_append (s := s.withControl ctl) h]; rfl

/-- The simulation: replacing the control fields before a behaviour or after it is the same. A primitive
that reads answers alike, and one that writes carries the replaced fields along. -/
theorem Behaviour.run_withControl (b : Behaviour) :
    b.run c (s.withControl ctl) = mapNext (·.withControl ctl) (b.run c s) := by
  induction b generalizing s with
  | done => rfl
  | readReg _ _ ih | memRead _ _ ih | memReadPair _ _ ih =>
    simp only [Behaviour.run, readReg_withControl, memRead_withControl, memReadPair_withControl]
    split
    case h_1 v _ => exact ih v s
    case h_2 => rfl
  | writeReg i v k ih =>
    simp only [Behaviour.run, writeReg_withControl]
    cases Machine.writeReg c s i v with
    | ok t => exact ih t
    | error r => rfl
  | memWrite a v k ih =>
    simp only [Behaviour.run, memWrite_withControl]
    cases Machine.memWrite c s a v with
    | ok t => exact ih t
    | error f => rfl
  | push v k ih =>
    simp only [Behaviour.run, push_withControl]
    cases Machine.push c s v with
    | ok t => exact ih t
    | error f => rfl
  | pop k ih =>
    simp only [Behaviour.run, pop_withControl]
    cases Machine.pop s with
    | ok r => exact ih r.1 r.2
    | error f => rfl
  | top k ih | inspect k ih | readPc k ih => exact ih _ s
  | jump t k ih => exact ih (Machine.jump s t)
  | hop d k ih => exact ih (Machine.hop s d)

end

/-! ## The obligations -/

/-- Settles O16: inside the file the write is `setReg`, and reads after it go by index. -/
theorem registerWriteThenRead : Obligations.RegisterWriteThenRead := by
  intro c s i v hlen
  refine ⟨fun h0 hlast => ?inside, fun hout => ⟨writeReg_outside s v hout, readReg_outside s hout⟩⟩
  case inside =>
    exact ⟨s.setReg i.toNat (byteOfInt v), byteOfInt v, writeReg_inside s v h0 hlast,
      readReg_setReg_same hlen _ h0 hlast, byteOfInt_toNat v,
      fun _ hne => readReg_setReg_ne hlen _ h0 hlast hne, List.length_set, rfl⟩

/-- Settles O21: the four answers of `push` and `pop`, the newest entry last in the list. -/
theorem callStackIsABoundedLifo : Obligations.CallStackIsABoundedLifo := by
  intro c s v
  refine ⟨push_of_full v, fun hroom => ?room, fun _ _ => pop_of_eq_append,
    fun hempty => ⟨pop_of_eq_nil hempty, top_of_eq_nil hempty⟩⟩
  case room =>
    exact ⟨s.setStack (s.stack ++ [v]), push_of_room v hroom, rfl, top_of_eq_append rfl, rfl,
      pop_of_eq_append rfl⟩

/-- Settles O22: each is one update of the pc; hopping backwards is the only one to compute. -/
theorem pcPrimitivesMoveOnlyThePc : Obligations.PcPrimitivesMoveOnlyThePc :=
  fun s _ d => ⟨rfl, rfl, rfl, hopBackwards_eq s d, rfl⟩

/-- Settles O23: no primitive that writes touches a control field. -/
theorem behaviourCannotWriteControlState : Obligations.BehaviourCannotWriteControlState := by
  intro c b s t h
  refine Behaviour.run_keeps (·.sameControl s) ?reg ?mem ?push ?pop ?jump ?hop b
    ⟨rfl, rfl, rfl, rfl⟩ h
  case reg | mem => exact fun _ _ _ hu _ _ => hu
  case push => exact fun _ _ hu _ => hu
  case pop => exact fun _ hu => hu
  case jump | hop => exact fun _ _ hu => hu

/-- Settles O24: the second state is the first with other control fields, and running commutes with
replacing those. -/
theorem behaviourCannotObserveControlState : Obligations.BehaviourCannotObserveControlState := by
  intro c b s t hst
  have hrun : b.run c t = mapNext (·.withControl t) (b.run c s) := by
    rw [← b.run_withControl, ← hst.eq_withControl]
  refine ⟨fun s' h => ?completes, fun f h => ?faults, fun r h => ?refuses⟩
  case completes =>
    rw [h] at hrun
    exact ⟨s'.withControl t, hrun, rfl, rfl, rfl, rfl⟩
  case faults => rw [hrun, h]; rfl
  case refuses => rw [hrun, h]; rfl

/-- Settles O32: each behaviour reads its registers first, and the read of a missing one refuses. -/
theorem missingRegisterIsRefused : Obligations.MissingRegisterIsRefused := by
  intro x y kk s hx
  have hout : (x : Int) < 0 ∨ (Config.unit.nreg : Int) - 1 < x := by rw [unit_nreg]; omega
  refine ⟨executePhase_of_refused (Behaviour.run_readReg_outside _ _ hout),
    executePhase_of_refused (Behaviour.run_readReg_outside _ _ hout), fun hy => ?second⟩
  case second =>
    have hlast : (y : Int) ≤ (Config.unit.nreg : Int) - 1 := by rw [unit_nreg]; omega
    exact executePhase_of_refused
      ((Behaviour.run_readReg_inside _ _ (Int.natCast_nonneg y) hlast).trans
        (Behaviour.run_readReg_outside _ _ hout))

end Sys2Proof.Machine
end

