-- ==== Sys2Proof/Proofs/StepAndHostCommands.lean ====
section
/-! PROOFS. STEP and the host commands (43_step_and_host_commands.md): what each phase of a STEP answers,
that STEP of the model is the table-driven engine over RC6, that no state outside LOADED is stuck, STEP
after STEP, and what every command makes of the state (R181 to R197). -/

namespace Sys2Proof

/-! ## What the decoder and the table of RC6 answer together (R135) -/

/-- The only decode fault of RC6 carries the word it was asked about (R87). -/
theorem decode_error {w : Word} {d : DecodeError} (h : decode w = .error d) :
    d = .unknownOpcode w := by
  obtain ⟨-, -, -, i, -, hd⟩ | ⟨-, hd⟩ := decode_cases w
  · rw [hd] at h; cases h
  · exact Except.error.inj (h.symm.trans hd)

/-- A word that decodes selects a row, and that row makes the instruction of it. -/
theorem dispatch_rc6_of_decode_ok {w : Word} {i : Instr} (h : decode w = .ok i) :
    ∃ op, dispatch rc6 w = .ok op ∧ op.execute (decodeOperands op w) = some i := by
  obtain ⟨op, hop, hw, j, hj, hd⟩ | ⟨-, hd⟩ := decode_cases w
  · obtain rfl : j = i := Except.ok.inj (hd.symm.trans h)
    exact ⟨op, (dispatch_eq_ok_iff rc6 w op).2 (filter_rc6_of_matches hop hw), hj⟩
  · rw [hd] at h; cases h

/-- A decode fault is the fault of the scan: a row that is selected decodes. -/
theorem dispatch_rc6_of_decode_error {w : Word} {d : DecodeError} (h : decode w = .error d) :
    dispatch rc6 w = .error d := by
  cases hsel : dispatch rc6 w with
  | error d' => simpa [decode, hsel] using h
  | ok op =>
    obtain ⟨i, hi⟩ := execute_decodeOperands_isSome (dispatch_ok hsel).1 w
    simp [decode, hsel, hi] at h

end Sys2Proof

namespace Sys2Proof.Machine

/-! ## The phases of a STEP, one answer at a time (R181 to R183) -/

section
variable {c : Config} {s : State} {w : Word}

theorem sequence_of_fetch_ok {rest} (hs : s.steppable) (hw : fetch c s s.pc = .ok w) :
    sequence c s rest = rest w := by
  rw [sequence_steppable hs, hw]

theorem sequence_of_fetch_error {rest} {f : Fault} (hs : s.steppable)
    (hf : fetch c s s.pc = .error f) : sequence c s rest = .next (takeFault s f none) := by
  rw [sequence_steppable hs, hf]

/-- Without a program every fetch faults (R53). -/
theorem fetch_of_not_loaded (h : s.loaded = false) (a : Int) :
    fetch c s a = .error (.boundsError a) :=
  if_pos h

/-- In UNLOADED a STEP gets no further than its fetch (R184). -/
theorem sequence_unloaded {rest} (hrs : s.rs = .unloaded) (hl : s.loaded = false) :
    sequence c s rest = .next (takeFault s (.boundsError s.pc) none) :=
  sequence_of_fetch_error (.inl hrs) (fetch_of_not_loaded hl s.pc)

theorem executePhase_of_next {b : Behaviour} {u : State} (h : b.run c (advance s) = .next u) :
    executePhase c w b s = .next u.complete := by
  simp only [executePhase, h]

theorem executePhase_of_fault {b : Behaviour} {f : Fault} (h : b.run c (advance s) = .fault f) :
    executePhase c w b s = .next (takeFault s f (some w)) := by
  simp only [executePhase, h]

end

/-! ## STEP over RC6 (R135, R141, R220) -/

section
variable {c : Config} {w : Word}

/-- Over RC6 the engine selects the behaviour of the instruction the word decodes to. -/
theorem Engine.rc6_dispatch_of_decode_ok {i : Instr} (h : decode w = .ok i) :
    ∃ op, dispatch (Engine.rc6 c).catalog w = .ok op ∧
      op.execute (decodeOperands op w) = behaviourOf c i := by
  obtain ⟨op, hsel, hi⟩ := dispatch_rc6_of_decode_ok h
  refine ⟨_, (dispatch_map _ Sys2Proof.rc6 w).trans (congrArg _ hsel), ?behaviour⟩
  case behaviour =>
    simp only [decodeOperands] at hi
    simp only [Op.map, decodeOperands, hi]

theorem Engine.rc6_dispatch_of_decode_error {d : DecodeError} (h : decode w = .error d) :
    dispatch (Engine.rc6 c).catalog w = .error d :=
  (dispatch_map _ Sys2Proof.rc6 w).trans (congrArg _ (dispatch_rc6_of_decode_error h))

/-- STEP of the engine with RC6 on a word that decodes is the execute phase of its instruction. -/
theorem Engine.rc6_step_of_decode_ok {s : State} {i : Instr} (hs : s.steppable)
    (hw : fetch c s s.pc = .ok w) (h : decode w = .ok i) :
    (Engine.rc6 c).step s = executePhase c w (behaviourOf c i) s := by
  obtain ⟨op, hsel, hb⟩ := Engine.rc6_dispatch_of_decode_ok (c := c) h
  rw [Engine.step_of_fetch_ok (e := Engine.rc6 c) hs hw, hsel, ← hb]
  rfl

end

/-! ## No instruction of RC6 is refused (R142, R194) -/

/-- With the sixteen registers its fields can name, a well-formed instruction of RC6 completes or
faults: the registers it reads and writes exist. -/
theorem behaviourOf_run_ne_refused {c : Config} (hreg : 16 ≤ c.nreg) {i : Instr}
    (hwf : i.wf = true) (s : State) (r : Refusal) : (behaviourOf c i).run c s ≠ .refused r := by
  cases i with
  | nop => exact nofun
  | jp nnn => exact nofun
  | ret =>
    simp only [behaviourOf, retBehaviour, Behaviour.run]
    split <;> exact nofun
  | call nnn =>
    simp only [behaviourOf, callBehaviour, Behaviour.run]
    split <;> exact nofun
  | se x kk =>
    obtain ⟨hx, -⟩ : x < 16 ∧ kk < 256 := by simpa [Instr.wf] using hwf
    rw [behaviourOf, seBehaviour, registerOperand,
      Behaviour.run_readReg_inside _ _ (by omega) (by omega)]
    split <;> exact nofun
  | add x y =>
    obtain ⟨hx, hy⟩ : x < 16 ∧ y < 16 := by simpa [Instr.wf] using hwf
    rw [behaviourOf, addBehaviour, registerOperand, registerOperand,
      Behaviour.run_readReg_inside _ _ (by omega) (by omega),
      Behaviour.run_readReg_inside _ _ (by omega) (by omega)]
    have hwrite (t : State) (v : Int) := writeReg_inside (c := c) (i := x) t v (by omega) (by omega)
    have hflag (t : State) (v : Int) :=
      writeReg_inside (c := c) (i := flagIndex c) t v (by unfold flagIndex; omega) le_rfl
    simp only [Behaviour.run, hwrite, hflag]
    exact nofun

/-- An execute phase whose behaviour is not refused answers a next state, completed or faulted. -/
theorem executePhase_answers {c : Config} {w : Word} {b : Behaviour} {s : State}
    (h : ∀ r, b.run c (advance s) ≠ .refused r) :
    ∃ t, executePhase c w b s = .next t ∧ (t.rs = .running ∨ t.rs = .faulted) := by
  cases hrun : b.run c (advance s) with
  | next u => exact ⟨_, executePhase_of_next hrun, .inl rfl⟩
  | fault f => exact ⟨_, executePhase_of_fault hrun, .inr rfl⟩
  | refused r => exact absurd hrun (h r)

/-- An instruction that a word can carry completes or latches a fault, in every state. -/
theorem exec_answers {i : Instr} (hwf : i.wf = true) (s : State) :
    ∃ t, exec i s = .next t ∧ (t.rs = .running ∨ t.rs = .faulted) := by
  rw [exec_eq_executePhase]
  exact executePhase_answers (behaviourOf_run_ne_refused (c := Config.unit) (by simp) hwf _)

/-! ## An instruction placed where the next STEP fetches (log 13) -/

theorem placeWord_steppable (c : Config) (s : State) (w : Word) :
    (placeWord c s w).steppable := by
  by_cases h : s.rs = .running ∨ s.rs = .halted
  · have hrs : (placeWord c s w).rs = s.rs := if_pos h
    rw [State.steppable, hrs]
    exact .inr (.inr h)
  · exact .inr (.inl (if_neg h))

theorem placeWord_pc (c : Config) (s : State) (w : Word) :
    (placeWord c s w).pc = placeAddress c s :=
  rfl

/-- The word placed is the word fetched, wherever its two bytes lie inside the memory: the first is not
overwritten by the second, and the image is made to reach over both. -/
theorem fetch_placeWord {c : Config} {s : State} (hwf : s.mem.wf = true) (w : Word)
    (h0 : 0 ≤ placeAddress c s) (hlast : placeAddress c s + 1 ≤ (c.memSize : Int) - 1) :
    fetch c (placeWord c s w) (placeWord c s w).pc = .ok w := by
  have hbound : placeAddress c s + 1 ≤ fetchLast c (placeWord c s w).plen c.fetchBound := by
    cases c.fetchBound with
    | memory => exact hlast
    | image => simp only [fetchLast, placeWord]; omega
  have hplen : (placeWord c s w).plen ≠ 0 := by simp only [placeWord]; omega
  have hread := Memory.read_write (Memory.wf_write hwf (placeAddress c s).toNat (firstByte w))
    ((placeAddress c s).toNat + 1) (secondByte w)
  have hfirst : (placeWord c s w).mem.read (placeAddress c s).toNat = firstByte w := by
    rw [placeWord, hread, if_neg (by omega), Memory.read_write hwf, if_pos rfl]
  have hsecond : (placeWord c s w).mem.read ((placeAddress c s).toNat + 1) = secondByte w := by
    rw [placeWord, hread, if_pos rfl]
  rw [placeWord_pc, fetch_eq,
    if_pos ⟨rfl, h0, hbound, fun _ => hplen⟩, hfirst, hsecond, wordOfBytes_bytes]

/-- In the unit an instruction is always placed inside the memory, since `ENTRY` is. -/
theorem placeAddress_unit (s : State) :
    0 ≤ placeAddress Config.unit s ∧
      placeAddress Config.unit s + 1 ≤ (Config.unit.memSize : Int) - 1 := by
  unfold placeAddress
  split
  · assumption
  · simp

/-- The bits of a row, laid out as the unit stores them, are decoded as that word. -/
theorem decode_of_decodeTableWord {w : Nat} {i : Instr} (h : decodeTableWord 16 w = some i) :
    decode (tableWord 16 w) = .ok i := by
  simp only [decodeTableWord, decodeBytes, wordOfBytes_bytes, le_refl, if_true] at h
  split at h
  · cases h; assumption
  · cases h

theorem tableWord_eq_ofNat (w : Nat) : tableWord 16 w = BitVec.ofNat 16 w := by
  apply BitVec.eq_of_toNat_eq
  simp [tableWord]

/-! ## STEP after STEP (R183, R188) -/

/-- A STEP that gives a next state leaves it RUNNING or FAULTED (R194). -/
theorem Engine.step_rs {e : Engine} {s t : State} (h : e.step s = .next t) :
    t.rs = .running ∨ t.rs = .faulted := by
  obtain ⟨hr, rfl⟩ | ⟨-, -, rfl⟩ | ⟨-, _, _, -, -, rfl⟩ | ⟨-, _, _, -, -, hend⟩ := Engine.step_next h
  · exact .inr hr
  · exact .inr rfl
  · exact .inr rfl
  · obtain ⟨u, -, rfl⟩ | ⟨f, -, rfl⟩ := hend
    · exact .inl rfl
    · exact .inr rfl

section
variable {e : Engine} {s t : State}

theorem Engine.step_faulted (h : s.rs = .faulted) : e.step s = .next s := sequence_faulted h

theorem Engine.steps_succ_of_next (h : e.step s = .next t) (n : Nat) :
    e.steps (n + 1) s = if t.rs = .faulted then .next t else e.steps n t := by
  rw [Engine.steps, h]

theorem Engine.steps_succ_of_refused {r : Refusal} (h : e.step s = .refused r) (n : Nat) :
    e.steps (n + 1) s = .refused r := by
  rw [Engine.steps, h]

/-- What one or more steps that give a next state have done: the first gave one, and either latched a
fault and was the last, or the others followed from there (R188). -/
theorem Engine.steps_succ_next {n : Nat} (h : e.steps (n + 1) s = .next t) :
    ∃ u, e.step s = .next u ∧
      ((u.rs = .faulted ∧ t = u) ∨ (u.rs ≠ .faulted ∧ e.steps n u = .next t)) := by
  rw [Engine.steps] at h
  split at h
  · rename_i u hu
    split at h
    case isTrue hf => cases h; exact ⟨t, hu, .inl ⟨hf, rfl⟩⟩
    case isFalse hf => exact ⟨u, hu, .inr ⟨hf, h⟩⟩
  · cases h
  · cases h

/-- One step is STEP, fault or no fault. -/
theorem Engine.steps_one : e.steps 1 s = e.step s := by
  cases h : e.step s with
  | next t => rw [Engine.steps_succ_of_next h, Engine.steps, ite_self]
  | fault f => rw [Engine.steps, h]
  | refused r => exact Engine.steps_succ_of_refused h 0

/-- A latched fault stops every number of steps (R183). -/
theorem Engine.steps_faulted (h : s.rs = .faulted) (n : Nat) : e.steps n s = .next s := by
  cases n with
  | zero => rfl
  | succ n => rw [Engine.steps_succ_of_next (Engine.step_faulted h), if_pos h]

/-- One or more steps leave the unit RUNNING or FAULTED (R194). -/
theorem Engine.steps_succ_rs {n : Nat} (h : e.steps (n + 1) s = .next t) :
    t.rs = .running ∨ t.rs = .faulted := by
  induction n generalizing s with
  | zero => exact Engine.step_rs (Engine.steps_one.symm.trans h)
  | succ n ih =>
    obtain ⟨u, -, ⟨hu, rfl⟩ | ⟨-, hrest⟩⟩ := Engine.steps_succ_next h
    · exact .inr hu
    · exact ih hrest

/-- Steps add up: a fault latched on the way stops both parts (R188). -/
theorem Engine.steps_add {m : Nat} (h : e.steps m s = .next t) (n : Nat) :
    e.steps (m + n) s = e.steps n t := by
  induction m generalizing s with
  | zero => cases h; rw [Nat.zero_add]
  | succ m ih =>
    obtain ⟨u, hstep, ⟨hu, rfl⟩ | ⟨hu, hrest⟩⟩ := Engine.steps_succ_next h
    · rw [Nat.succ_add, Engine.steps_succ_of_next hstep, if_pos hu, Engine.steps_faulted hu]
    · rw [Nat.succ_add, Engine.steps_succ_of_next hstep, if_neg hu, ih hrest]

/-- No number of steps leads into LOADED. -/
theorem Engine.steps_ne_loaded {m : Nat} (hs : s.rs ≠ .loaded) (h : e.steps m s = .next t) :
    t.rs ≠ .loaded := by
  cases m with
  | zero => cases h; exact hs
  | succ m => obtain hr | hr := Engine.steps_succ_rs h <;> simp [hr]

/-- The run state after any number of steps, by the run state before them (R194). -/
theorem Engine.steps_rs_table {n : Nat} (hs : s.Inv e.config) (h : e.steps n s = .next t) :
    if n = 0 ∨ s.rs = .faulted then t.rs = s.rs
    else if s.rs = .unloaded then t.rs = .faulted else t.rs = .running ∨ t.rs = .faulted := by
  cases n with
  | zero => cases h; rw [if_pos (.inl rfl)]
  | succ n =>
    simp only [or_iff_right n.succ_ne_zero]
    split
    case isTrue hf =>
      rw [Engine.steps_faulted hf] at h
      cases h; rfl
    case isFalse =>
      split
      case isTrue hu =>
        have hfault : e.step s = _ := sequence_unloaded hu (hs.unloaded_imp hu)
        rw [Engine.steps_succ_of_next hfault, if_pos (takeFault_rs _ _ _)] at h
        cases h; rfl
      case isFalse => exact Engine.steps_succ_rs h

/-- The run state after a STEP is that after one step. -/
theorem Engine.step_rs_table (hs : s.Inv e.config) (h : e.step s = .next t) :
    if s.rs = .faulted then t.rs = .faulted
    else if s.rs = .unloaded then t.rs = .faulted else t.rs = .running ∨ t.rs = .faulted := by
  have hone := Engine.steps_rs_table (n := 1) hs (Engine.steps_one.trans h)
  split
  case isTrue hf => simpa [hf] using hone
  case isFalse hf => simpa [hf] using hone

theorem Engine.run_of_ne_loaded (hs : s.rs ≠ .loaded) (n : Nat) : e.run n s = e.steps n s :=
  if_neg hs

theorem Engine.run_loaded (hs : s.rs = .loaded) (n : Nat) : e.run n s = .refused .stepInLoaded :=
  if_pos hs

end

/-- An accepted command that steps reports on the state it leaves. -/
theorem reported_next_reply {o : Host.Outcome State Fault Refusal} {t : State} {r : Reply}
    (h : reported o = .next (t, r)) : r = stepReply t := by
  cases o <;> cases h
  rfl

/-- The report hides no refusal and makes none. -/
theorem reported_refused {o : Host.Outcome State Fault Refusal} {x : Refusal}
    (h : reported o = .refused x) : o = .refused x := by
  cases o <;> cases h
  rfl

/-- JP to its own address only sets the run state (R195, R223). -/
theorem rc6_step_selfLoop {c : Config} {s : State} {a : Nat} (hs : s.steppable) (ha : a < 0x1000)
    (hpc : s.pc = a) (hw : fetch c s s.pc = .ok (encode (.jp a))) :
    (Engine.rc6 c).step s = .next { s with rs := .running } := by
  have hdec : decode (encode (.jp a)) = .ok (.jp a) :=
    decodeOfEncodeIsTheInstruction _ (by simpa [Instr.wf] using ha)
  have hsame : (jump (advance s) a).complete = { s with rs := .running } :=
    State.ext_fields rfl hpc.symm rfl rfl rfl rfl rfl rfl
  rw [Engine.rc6_step_of_decode_ok hs hw hdec, ← hsame]
  exact executePhase_of_next rfl

/-! ## The obligations on STEP -/

/-- Settles O40: the fetch, the decoder and the instruction each end in a fault taken or a state that
completes, since an instruction a word carries names registers that exist. -/
theorem everyStepAnswersANextState : Obligations.EveryStepAnswersANextState := by
  intro s _ hloaded
  rcases s.rs_cases with hr | hr | hr
  · exact absurd hr hloaded
  · exact ⟨s, sequence_faulted hr, fun h => absurd hr h⟩
  · cases hw : fetch Config.unit s s.pc with
    | error f => exact ⟨_, sequence_of_fetch_error hr hw, fun _ => .inr rfl⟩
    | ok w =>
      rw [step, sequence_of_fetch_ok hr hw]
      cases hd : decode w with
      | error d => exact ⟨_, rfl, fun _ => .inr rfl⟩
      | ok i =>
        obtain ⟨t, ht, hrs⟩ := exec_answers (encodeOfDecodeIsTheWord w i hd).1 s
        exact ⟨t, ht, fun _ => hrs⟩

/-- Settles O41: word by word, the catalog selects the behaviour of what the decoder answers, and the
word is that instruction's own encoding. -/
theorem stepIsTheTableDrivenEngine : Obligations.StepIsTheTableDrivenEngine := by
  intro s
  refine congrArg (sequence Config.unit s) (funext fun w => ?_)
  cases hd : decode w with
  | error d =>
    rw [Engine.rc6_dispatch_of_decode_error hd]
    rfl
  | ok i =>
    obtain ⟨op, hsel, hb⟩ := Engine.rc6_dispatch_of_decode_ok (c := Config.unit) hd
    obtain ⟨-, henc⟩ := encodeOfDecodeIsTheWord w i hd
    simp only [hsel, dispatchPhase, hb, exec_eq_executePhase, henc]
    rfl

/-- Settles O42: a STEP that ends FAULTED took its fault in the state it began in. -/
theorem faultingStepHasNoOtherEffect : Obligations.FaultingStepHasNoOtherEffect := by
  intro e s t hs h ht
  obtain ⟨hr, -⟩ | ⟨-, hf, rfl⟩ | ⟨-, w, d, hw, -, rfl⟩ | ⟨-, w, op, hw, -, hend⟩ :=
    Engine.step_next h
  · exact absurd hr hs
  · exact ⟨_, rfl, rfl, fun v => by simp [hf]⟩
  · exact ⟨_, rfl, rfl, fun v => by simp [hw]⟩
  · obtain ⟨u, -, rfl⟩ | ⟨f, -, rfl⟩ := hend
    · cases ht
    · exact ⟨_, rfl, rfl, fun v => by simp [hw]⟩

/-- Settles O35: the fetch and the decoder hand the instruction on. -/
theorem stepRunsTheDecodedInstruction : Obligations.StepRunsTheDecodedInstruction := by
  intro s w i hs hw hd
  rw [step, sequence_of_fetch_ok hs hw, hd]
  rfl

/-- Settles O44: the word placed is fetched, and then STEP runs what it decodes to. -/
theorem placedInstructionIsRunNext : Obligations.PlacedInstructionIsRunNext := by
  intro s w i hwf hi
  obtain ⟨h0, hlast⟩ := placeAddress_unit s
  have hsteppable := placeWord_steppable Config.unit s (tableWord 16 w)
  have hfetch := fetch_placeWord hwf (tableWord 16 w) h0 hlast
  exact ⟨hsteppable, tableWord_eq_ofNat w ▸ hfetch,
    stepRunsTheDecodedInstruction _ _ i hsteppable hfetch (decode_of_decodeTableWord hi)⟩

/-- Settles O45, by induction on the number of steps: after the first the state is the same but for
the run state, which no fetch reads. -/
theorem selfLoopIsAFixedPoint : Obligations.SelfLoopIsAFixedPoint := by
  intro c s a n hs ha hpc hw
  have hstep := rc6_step_selfLoop hs ha hpc hw
  induction n generalizing s with
  | zero => exact Engine.steps_one.trans hstep
  | succ n ih =>
    rw [Engine.steps_succ_of_next hstep, if_neg (by simp)]
    have hs' : State.steppable { s with rs := .running } := .inr (.inr (.inl rfl))
    exact ih _ hs' hpc hw (rc6_step_selfLoop hs' ha hpc hw)

/-- Settles O36: each fault is taken in the state the STEP began in. -/
theorem stepLatchesFetchAndDecodeFaults : Obligations.StepLatchesFetchAndDecodeFaults := by
  intro s hs
  refine ⟨fun f hf => ?fetch, fun w v hw hd => ?decode⟩
  case fetch =>
    cases fetch_error hf
    exact sequence_of_fetch_error hs hf
  case decode =>
    cases decode_error hd
    rw [step, sequence_of_fetch_ok hs hw, hd]
    rfl

/-- Settles O38, phase by phase. -/
theorem raisedFaultIsLatchedAndTheStepUndone : Obligations.RaisedFaultIsLatchedAndTheStepUndone := by
  intro e s hs
  refine ⟨fun f hf => sequence_of_fetch_error hs hf, fun w d hw hd => ?dispatch,
    fun w op f hw hop hrun => ?execute⟩
  case dispatch =>
    rw [Engine.step_of_fetch_ok hs hw, hd]
    rfl
  case execute =>
    rw [Engine.step_of_fetch_ok hs hw, hop]
    exact executePhase_of_fault hrun

/-- Settles O39: the sequencer by its run state. -/
theorem stepInLoadedFaultedAndUnloaded : Obligations.StepInLoadedFaultedAndUnloaded :=
  fun _ => ⟨sequence_loaded, sequence_faulted, sequence_unloaded⟩

/-! ## LOAD (R185, R197) -/

theorem loadCommand_of_fits {c : Config} {img : List Byte} (s : State)
    (h : c.loadOffset + img.length ≤ c.memSize) :
    loadCommand c (.image img) s = .next (loadImage c img s, .done) :=
  if_pos h

theorem loadCommand_of_too_large {c : Config} {img : List Byte} (s : State)
    (h : c.memSize < c.loadOffset + img.length) :
    loadCommand c (.image img) s = .refused (.imageTooLarge img.length) :=
  if_neg (by omega)

/-! ## STOP (R189) -/

theorem stopUnit_of_running {s : State} (h : s.rs = .running) :
    stopUnit s = { s with rs := .halted } := by
  simp only [stopUnit, h, if_true]

theorem stopUnit_of_ne_running {s : State} (h : s.rs ≠ .running) : stopUnit s = s := by
  simp only [stopUnit, h, if_false]

/-! ## RESTORE (R192) -/

/-- The values a register or memory cell can hold (R20, R23). -/
theorem isByte_iff (v : Int) : isByte v = true ↔ 0 ≤ v ∧ v ≤ 255 := by
  simp [isByte]

/-- The shape of a snapshot, as R192 asks it. -/
theorem wellShaped_iff (c : Config) (snap : Snapshot) :
    snap.wellShaped c = true ↔
      snap.regs.length = c.nreg ∧ snap.mem.length = c.memSize ∧
        snap.stack.length ≤ c.stackDepth ∧ ∀ v ∈ snap.regs ++ snap.mem, 0 ≤ v ∧ v ≤ 255 := by
  simp only [Snapshot.wellShaped, Bool.and_eq_true, decide_eq_true_eq, List.all_eq_true,
    isByte_iff, List.forall_mem_append, and_assoc]

section
variable {c : Config} {snap : Snapshot} (s : State)

theorem restoreCommand_of_mismatch (h : snap.id ≠ c.archId ∨ snap.version ≠ c.snapVersion) :
    restoreCommand c snap s = .next (s, .failed .snapshotMismatch) :=
  if_pos h

/-- Matching tags leave the shape to decide. -/
theorem restoreCommand_of_match (hid : snap.id = c.archId) (hversion : snap.version = c.snapVersion) :
    restoreCommand c snap s =
      if snap.wellShaped c then .next (restoreState snap s, .done)
      else .refused .malformedSnapshot :=
  if_neg (by simp [hid, hversion])

/-- A byte's value survives being written to a cell. -/
theorem byteOfInt_toNat_of_isByte {v : Int} (h : 0 ≤ v ∧ v ≤ 255) :
    ((byteOfInt v).toNat : Int) = v :=
  (byteOfInt_toNat v).trans (castTo_of_mem h.1 (by omega))

/-- The registers after a RESTORE are the snapshot's. -/
theorem restoreState_regs (h : ∀ v ∈ snap.regs, 0 ≤ v ∧ v ≤ 255) :
    (restoreState snap s).regs.map (fun b => (b.toNat : Int)) = snap.regs := by
  calc (snap.regs.map byteOfInt).map (fun b => (b.toNat : Int))
      = snap.regs.map fun v => ((byteOfInt v).toNat : Int) := List.map_map
    _ = snap.regs.map id := List.map_congr_left fun v hv => byteOfInt_toNat_of_isByte (h v hv)
    _ = snap.regs := List.map_id _

/-- Every byte of memory after a RESTORE is the snapshot's, and 0 beyond its last. -/
theorem restoreState_mem_read (h : ∀ v ∈ snap.mem, 0 ≤ v ∧ v ≤ 255) (a : Nat) :
    (((restoreState snap s).mem.read a).toNat : Int) = snap.mem.getD a 0 := by
  rw [show (restoreState snap s).mem = Memory.install [] 0 (snap.mem.map byteOfInt) from rfl,
    Memory.read_install Memory.wf_nil, List.length_map]
  by_cases ha : a < snap.mem.length
  · rw [if_pos (by omega), Nat.sub_zero, List.getD_eq_getElem _ _ (by simpa using ha),
      List.getD_eq_getElem _ _ ha, List.getElem_map,
      byteOfInt_toNat_of_isByte (h _ (List.getElem_mem ha))]
  · rw [if_neg (by omega), List.getD_eq_default _ _ (by omega)]
    rfl

end

/-! ## A snapshot the unit took (R190, R191, R193) -/

section
variable (c : Config) (s : State)

theorem takeSnapshot_mem_getElem? {a : Nat} (ha : a < c.memSize) :
    (takeSnapshot c s).mem[a]? = some ((s.mem.read a).toNat : Int) := by
  simp [takeSnapshot, ha]

theorem takeSnapshot_mem_length : (takeSnapshot c s).mem.length = c.memSize := by
  simp [takeSnapshot]

variable {c s} (hs : s.Inv c)
include hs

/-- A snapshot of a state of the unit has the shape RESTORE asks for. -/
theorem takeSnapshot_wellShaped : (takeSnapshot c s).wellShaped c = true := by
  rw [wellShaped_iff]
  refine ⟨by simp [takeSnapshot, hs.regs_length], takeSnapshot_mem_length c s, hs.stack_length, ?bytes⟩
  case bytes =>
    have hbyte (b : Byte) : 0 ≤ (b.toNat : Int) ∧ (b.toNat : Int) ≤ 255 := by
      have := b.isLt
      omega
    simp only [takeSnapshot, List.forall_mem_append, List.forall_mem_map, hbyte, and_self,
      implies_true]

/-- The memory of the snapshot is the whole of `M`: beyond `MEM_SIZE` there is nothing. -/
theorem takeSnapshot_mem_getD (a : Nat) :
    (takeSnapshot c s).mem.getD a 0 = ((s.mem.read a).toNat : Int) := by
  by_cases ha : a < c.memSize
  · rw [List.getD_eq_getElem?_getD, takeSnapshot_mem_getElem? c s ha, Option.getD_some]
  · rw [List.getD_eq_default _ _ (by rw [takeSnapshot_mem_length]; omega),
      Memory.read_of_below hs.mem_below (by omega)]
    rfl

/-- A RESTORE of the snapshot brings the context back, whatever the state it is given in. -/
theorem restoreState_takeSnapshot_sameContext (t : State) :
    (restoreState (takeSnapshot c s) t).sameContext s := by
  refine ⟨?regs, rfl, ?mem, rfl⟩
  case regs => simp [restoreState, takeSnapshot, Function.comp_def]
  case mem =>
    obtain ⟨-, -, -, hbytes⟩ := (wellShaped_iff _ _).1 (takeSnapshot_wellShaped hs)
    obtain ⟨-, hbytesMem⟩ := List.forall_mem_append.1 hbytes
    refine Memory.eq_of_read (Memory.wf_install Memory.wf_nil _ _) hs.mem_wf fun a => ?_
    apply BitVec.eq_of_toNat_eq
    have hread := restoreState_mem_read t hbytesMem a
    rw [takeSnapshot_mem_getD hs] at hread
    exact_mod_cast hread

end

/-! ## The obligations on the host commands -/

/-- Settles O50: the image is laid out over an empty memory. -/
theorem loadReplacesTheWholeMemory : Obligations.LoadReplacesTheWholeMemory := by
  intro c img s hfit
  exact ⟨loadImage c img s, loadCommand_of_fits s hfit, Memory.read_install Memory.wf_nil _ img,
    rfl, rfl, rfl, rfl, rfl, rfl, rfl⟩

/-- Settles O51: the command answers with the state it was given. -/
theorem loaderErrorLeavesTheState : Obligations.LoaderErrorLeavesTheState := fun _ _ => rfl

/-- Settles O52: LOAD tests exactly whether the image fits. -/
theorem oversizeImageIsRefused : Obligations.OversizeImageIsRefused := by
  intro c img s
  by_cases h : c.memSize < c.loadOffset + img.length
  · exact iff_of_true ⟨_, loadCommand_of_too_large s h⟩ h
  · refine iff_of_false ?_ h
    rintro ⟨n, hn⟩
    rw [loadCommand_of_fits s (by omega)] at hn
    cases hn

/-- Settles O53: RESET keeps the image window of the memory. -/
theorem resetClearsAllButTheImage : Obligations.ResetClearsAllButTheImage := by
  intro e s
  exact ⟨resetUnit e.config s, rfl, rfl, rfl, rfl, Memory.read_keepWindow _ _, rfl, rfl, rfl, rfl⟩

/-- Settles O54: STOP by the run state. -/
theorem stopHaltsARunningUnit : Obligations.StopHaltsARunningUnit :=
  fun _ _ => ⟨fun h => by rw [Engine.command, stopUnit_of_running h],
    fun h => by rw [Engine.command, stopUnit_of_ne_running h]⟩

/-- Settles O55: the snapshot's tags match and its shape is right, so it is restored. -/
theorem restoreOfASnapshotBringsBackTheState : Obligations.RestoreOfASnapshotBringsBackTheState := by
  intro e s t hs
  exact ⟨takeSnapshot e.config s, restoreState (takeSnapshot e.config s) t, rfl,
    (restoreCommand_of_match t rfl rfl).trans (if_pos (takeSnapshot_wellShaped hs)),
    restoreState_takeSnapshot_sameContext hs t, rfl, rfl, rfl, rfl⟩

/-- Settles O56: the tags decide first, then the shape; a value of a byte survives its cell. -/
theorem restoreReplacesAllOrNothing : Obligations.RestoreReplacesAllOrNothing := by
  intro e snap s
  refine ⟨restoreCommand_of_mismatch s, fun hid hversion hbad => ?malformed,
    fun hid hversion hregs hmem hstack hbytes => ?restored⟩
  case malformed =>
    refine (restoreCommand_of_match s hid hversion).trans (if_neg fun hshape => ?_)
    obtain ⟨hregs, hmem, hstack, hbytes⟩ := (wellShaped_iff _ _).1 hshape
    obtain h | h | h | ⟨v, hv, h⟩ := hbad
    · exact h hregs
    · exact h hmem
    · omega
    · have := hbytes v hv; omega
  case restored =>
    have hshape := (wellShaped_iff e.config snap).2 ⟨hregs, hmem, hstack, hbytes⟩
    obtain ⟨hbytesRegs, hbytesMem⟩ := List.forall_mem_append.1 hbytes
    exact ⟨restoreState snap s, (restoreCommand_of_match s hid hversion).trans (if_pos hshape),
      restoreState_regs s hbytesRegs, restoreState_mem_read s hbytesMem, rfl, rfl, rfl, rfl, rfl, rfl⟩

/-- Settles O57: outside LOADED a RUN is its steps, and steps add up. -/
theorem runIsStepAfterStep : Obligations.RunIsStepAfterStep := by
  intro e s
  refine ⟨fun hs => ?stepping, fun hs n => congrArg reported (Engine.run_loaded hs n)⟩
  case stepping =>
    have hrun (n : Nat) : e.command (.run n) s = reported (e.steps n s) :=
      congrArg reported (Engine.run_of_ne_loaded hs n)
    refine ⟨hrun 0, (hrun 1).trans (congrArg reported Engine.steps_one), fun n t r h => ?next,
      fun n x h => ?refused, fun m n t r h => ?add⟩
    case next =>
      have hstep := reported_next h
      rw [hrun, Engine.steps_succ_of_next hstep, reported_next_reply h]
      split
      case isTrue => rfl
      case isFalse hfaulted =>
        have hne : t.rs ≠ .loaded := by simp [(Engine.step_rs hstep).resolve_right hfaulted]
        exact congrArg reported (Engine.run_of_ne_loaded hne n).symm
    case refused =>
      rw [hrun, Engine.steps_succ_of_refused (reported_refused h)]
      rfl
    case add =>
      rw [hrun] at h ⊢
      have hsteps := reported_next h
      rw [Engine.steps_add hsteps n, ← Engine.run_of_ne_loaded (Engine.steps_ne_loaded hs hsteps) n]
      rfl

/-- Settles O58, command by command. -/
theorem runStateTable : Obligations.RunStateTable := by
  intro e s hs
  refine ⟨fun cmd t r h => ?accepted, fun hr => ⟨?step, fun n => ?run⟩⟩
  case step => exact congrArg reported (sequence_loaded hr)
  case run => exact congrArg reported (Engine.run_loaded hr n)
  case accepted =>
    cases cmd with
    | load source =>
      cases source with
      | noLoader => cases h; rfl
      | image img =>
        by_cases hfit : e.config.loadOffset + img.length ≤ e.config.memSize
        · rw [Engine.command, loadCommand_of_fits s hfit] at h
          cases h; rfl
        · rw [Engine.command, loadCommand_of_too_large s (by omega)] at h
          cases h
    | reset => cases h; rfl
    | step => exact Engine.step_rs_table hs (reported_next h)
    | run n =>
      by_cases hr : s.rs = .loaded
      · rw [Engine.command, Engine.run_loaded hr] at h
        cases h
      · rw [Engine.command, Engine.run_of_ne_loaded hr] at h
        exact Engine.steps_rs_table hs (reported_next h)
    | stop => cases h; rfl
    | snapshot => cases h; rfl
    | restore snap =>
      by_cases htags : snap.id = e.config.archId ∧ snap.version = e.config.snapVersion
      · rw [Engine.command, restoreCommand_of_match s htags.1 htags.2] at h
        split at h
        · cases h; exact (if_pos htags).mpr rfl
        · cases h
      · rw [Engine.command, restoreCommand_of_mismatch s (not_and_or.1 htags)] at h
        cases h; exact (if_neg htags).mpr rfl
    | top => cases h; rfl
    | inspect => cases h; rfl

/-- Settles O60: each read is a field of the state it leaves. -/
theorem hostReadsChangeNothing : Obligations.HostReadsChangeNothing := by
  intro e s
  refine ⟨⟨takeSnapshot e.config s, rfl, rfl, rfl, rfl, takeSnapshot_mem_length _ s,
    fun a ha => takeSnapshot_mem_getElem? _ s ha, rfl, rfl⟩, fun h => ?empty, fun older v h => ?entry, rfl⟩
  case empty => rw [Engine.command, top_of_eq_nil h]
  case entry => rw [Engine.command, top_of_eq_append h]

end Sys2Proof.Machine
end

