-- ==== Sys2Proof/Proofs/ReferenceCatalog.lean ====
section
/-! PROOFS. The reference catalog RC6 (44_reference_catalog.md R220 to R230): what the behaviour of each
instruction answers and what it must have done when it completes; from these, each instruction's next
state and frame, the return from a call, and the bound on the pc that every STEP keeps. -/

namespace Sys2Proof.Machine

/-! ## The bytes that ADD writes (R226) -/

theorem byteOfInt_addWrap (a b : Byte) : byteOfInt (addWrap a.toNat b.toNat 8).1 = a + b := by
  have hsum : (addWrap a.toNat b.toNat 8).1 = (a + b).toNat := castTo_toNat_add a b
  rw [hsum, byteOfInt_of_toNat]

/-- `FLAG` takes the carry: 1 on OVERFLOW and 0 on OK (R112, R226). -/
theorem byteOfInt_addWrap_flag (a b : Byte) :
    byteOfInt (addWrap a.toNat b.toNat 8).2.toInt =
      if 256 ≤ a.toNat + b.toNat then 1 else 0 := by
  rw [addWrap, wrap_flag]
  by_cases hcarry : 256 ≤ a.toNat + b.toNat
  · rw [if_neg (by omega), if_pos hcarry]
    rfl
  · rw [if_pos (by omega), if_neg hcarry]
    rfl

/-! ## What each behaviour answers (R221 to R226), for every value of the parameters -/

section
variable {c : Config} {s u : State} {older : List Int} {v : Int} {nnn x y kk : Nat}

theorem retBehaviour_run_of_append (h : s.stack = older ++ [v]) :
    (retBehaviour c).run c s = .next (jump (s.setStack older) (v - c.linkBias)) := by
  simp only [retBehaviour, Behaviour.run, pop_of_eq_append h]

theorem retBehaviour_run_of_nil (h : s.stack = []) :
    (retBehaviour c).run c s = .fault .stackUnderflow := by
  simp only [retBehaviour, Behaviour.run, pop_of_eq_nil h]

theorem callBehaviour_run_of_room (h : s.stack.length ≠ c.stackDepth) :
    (callBehaviour c nnn).run c s =
      .next (jump (s.setStack (s.stack ++ [s.pc + c.linkBias])) nnn) := by
  simp only [callBehaviour, Behaviour.run, push_of_room _ h, addressOperand]

theorem callBehaviour_run_of_full (h : s.stack.length = c.stackDepth) :
    (callBehaviour c nnn).run c s = .fault (.stackOverflow (s.pc + c.linkBias)) := by
  simp only [callBehaviour, Behaviour.run, push_of_full _ h]

theorem seBehaviour_run (hx : x < c.nreg) :
    (seBehaviour x kk).run c s =
      .next (if (s.regs.getD x 0).toNat = kk then hop s 1 else s) := by
  rw [seBehaviour, registerOperand, Behaviour.run_readReg_inside _ _ (by omega) (by omega),
    Int.toNat_natCast, constantOperand]
  by_cases heq : (s.regs.getD x 0).toNat = kk
  · rw [if_pos heq, if_pos (congrArg Nat.cast heq)]
    rfl
  · rw [if_neg heq, if_neg (mt Int.natCast_inj.1 heq)]
    rfl

/-- Both reads come before the writes, and the write of `FLAG` is the last (R226). -/
theorem addBehaviour_run (hx : x < c.nreg) (hy : y < c.nreg) :
    (addBehaviour c x y).run c s =
      .next ((s.setReg x (s.regs.getD x 0 + s.regs.getD y 0)).setReg (c.nreg - 1)
        (if 256 ≤ (s.regs.getD x 0).toNat + (s.regs.getD y 0).toNat then 1 else 0)) := by
  have hlast : (flagIndex c).toNat = c.nreg - 1 := by unfold flagIndex; omega
  have hwrite (t : State) (v : Int) := writeReg_inside (c := c) (i := x) t v (by omega) (by omega)
  have hflag (t : State) (v : Int) :=
    writeReg_inside (c := c) (i := flagIndex c) t v (by unfold flagIndex; omega) le_rfl
  rw [addBehaviour, registerOperand, registerOperand,
    Behaviour.run_readReg_inside _ _ (by omega) (by omega),
    Behaviour.run_readReg_inside _ _ (by omega) (by omega)]
  simp only [Behaviour.run, hwrite, hflag, hlast, Int.toNat_natCast, byteOfInt_addWrap,
    byteOfInt_addWrap_flag]

/-! ## What a behaviour that completes must have done -/

theorem retBehaviour_run_next (h : (retBehaviour c).run c s = .next u) :
    ∃ older v, s.stack = older ++ [v] ∧ u = jump (s.setStack older) (v - c.linkBias) := by
  obtain hnil | ⟨older, v, happ⟩ := s.stack.eq_nil_or_concat
  · rw [retBehaviour_run_of_nil hnil] at h; cases h
  · rw [List.concat_eq_append] at happ
    rw [retBehaviour_run_of_append happ] at h; cases h
    exact ⟨older, v, happ, rfl⟩

theorem callBehaviour_run_next (h : (callBehaviour c nnn).run c s = .next u) :
    u = jump (s.setStack (s.stack ++ [s.pc + c.linkBias])) nnn := by
  by_cases hfull : s.stack.length = c.stackDepth
  · rw [callBehaviour_run_of_full hfull] at h; cases h
  · rw [callBehaviour_run_of_room hfull] at h; cases h
    rfl

theorem seBehaviour_run_next (h : (seBehaviour x kk).run c s = .next u) :
    u = hop s 1 ∨ u = s := by
  by_cases hx : x < c.nreg
  · rw [seBehaviour_run hx] at h; cases h
    exact ite_eq_or_eq _ _ _
  · have hout : (x : Int) < 0 ∨ (c.nreg : Int) - 1 < x := by omega
    rw [seBehaviour, registerOperand, Behaviour.run_readReg_outside _ _ hout] at h; cases h

theorem addBehaviour_run_next (h : (addBehaviour c x y).run c s = .next u) :
    ∃ sum carry, u = (s.setReg x sum).setReg (c.nreg - 1) carry := by
  have hreads {i : Nat} (hi : ¬ i < c.nreg) : (i : Int) < 0 ∨ (c.nreg : Int) - 1 < i := by omega
  rw [addBehaviour, registerOperand, registerOperand] at h
  by_cases hx : x < c.nreg
  · by_cases hy : y < c.nreg
    · have hrun := addBehaviour_run (s := s) hx hy
      exact ⟨_, _, Host.Outcome.next.inj (h.symm.trans hrun)⟩
    · rw [Behaviour.run_readReg_inside _ _ (by omega) (by omega),
        Behaviour.run_readReg_outside _ _ (hreads hy)] at h
      cases h
  · rw [Behaviour.run_readReg_outside _ _ (hreads hx)] at h; cases h

end

/-! ## `exec`, by what the behaviour answers after the advance -/

section
variable {i : Instr} {s t u : State}

theorem exec_of_run_next (i : Instr) (s : State)
    (h : (behaviourOf Config.unit i).run Config.unit (advance s) = .next u) :
    exec i s = .next u.complete :=
  (exec_eq_executePhase i s).trans (executePhase_of_next h)

theorem exec_of_run_fault (i : Instr) (s : State) {f : Fault}
    (h : (behaviourOf Config.unit i).run Config.unit (advance s) = .fault f) :
    exec i s = .next (takeFault s f (some (encode i))) :=
  (exec_eq_executePhase i s).trans (executePhase_of_fault h)

theorem exec_next (h : exec i s = .next t) :
    (∃ u, (behaviourOf Config.unit i).run Config.unit (advance s) = .next u ∧ t = u.complete) ∨
      ∃ f, t = takeFault s f (some (encode i)) := by
  rw [exec_eq_executePhase] at h
  exact (executePhase_next h).imp_right fun ⟨f, _, ht⟩ => ⟨f, ht⟩

/-- Everything a STEP of the unit that gives a next state can have done: nothing, on a latched fault;
taken a fault of the fetch or of the decoder; run the instruction it fetched (R181 to R184). -/
theorem step_next (h : step s = .next t) :
    t = s ∨ (∃ f w, t = takeFault s f w) ∨
      ∃ w i, fetch Config.unit s s.pc = .ok w ∧ decode w = .ok i ∧ exec i s = .next t := by
  rcases s.rs_cases with hr | hr | hr
  · rw [step, sequence_loaded hr] at h; cases h
  · rw [step, sequence_faulted hr] at h; cases h
    exact .inl rfl
  · cases hw : fetch Config.unit s s.pc with
    | error f =>
      rw [step, sequence_of_fetch_error hr hw] at h; cases h
      exact .inr (.inl ⟨_, _, rfl⟩)
    | ok w =>
      rw [step, sequence_of_fetch_ok hr hw] at h
      cases hd : decode w with
      | error d =>
        rw [hd] at h; cases h
        exact .inr (.inl ⟨_, _, rfl⟩)
      | ok i =>
        rw [hd] at h
        exact .inr (.inr ⟨w, i, rfl, hd, h⟩)

end

/-! ## The bound on the pc (R228) -/

section
variable {s t : State}

/-- A taken fault leaves the pc and the stack (R183). -/
theorem takeFault_pcBounded {c : Config} (hs : s.PcBounded c) (f : Fault) (w : Option Word) :
    (takeFault s f w).PcBounded c :=
  ⟨hs.pc_nonneg, hs.pc_le, hs.entries⟩

/-- An instruction fetched from inside the memory keeps the bound: a jump goes to a 12-bit address, a
return to an entry of the stack, a call pushes the address after it, and a skip adds 4 at most. -/
theorem exec_pcBounded {i : Instr} (hwf : i.wf = true) (hs : s.PcBounded Config.unit)
    (hpc : s.pc + 2 ≤ 4096) (h : exec i s = .next t) : t.PcBounded Config.unit := by
  have h0 := hs.pc_nonneg
  have hentries := hs.entries
  rw [unit_memSize] at hentries
  obtain ⟨u, hu, rfl⟩ | ⟨f, rfl⟩ := exec_next h
  case inr => exact takeFault_pcBounded hs f _
  case inl =>
    cases i with
    | nop =>
      cases hu
      exact ⟨by simp; omega, by simp; omega, hentries⟩
    | ret =>
      obtain ⟨older, v, happ, rfl⟩ := retBehaviour_run_next hu
      rw [advance_stack] at happ
      rw [happ] at hentries
      have hv := hentries v (by simp)
      exact ⟨by simp; omega, by simp; omega,
        fun e he => hentries e (List.mem_append_left _ he)⟩
    | jp nnn =>
      have hn : nnn < 4096 := by simpa [Instr.wf] using hwf
      cases hu
      exact ⟨by simp [addressOperand], by simp [addressOperand]; omega, hentries⟩
    | call nnn =>
      have hn : nnn < 4096 := by simpa [Instr.wf] using hwf
      cases callBehaviour_run_next hu
      refine ⟨by simp, by simp; omega, fun e he => ?_⟩
      obtain hold | hnew : e ∈ s.stack ∨ e = s.pc + 2 := by simpa using he
      · exact hentries e hold
      · subst hnew
        exact ⟨by omega, hpc⟩
    | se x kk =>
      obtain rfl | rfl := seBehaviour_run_next hu <;>
        exact ⟨by simp; omega, by simp; omega, hentries⟩
    | add x y =>
      obtain ⟨_, _, rfl⟩ := addBehaviour_run_next hu
      exact ⟨by simp; omega, by simp; omega, hentries⟩

end

/-- Settles O48: the fetch finds its word inside the memory, and what the word decodes to keeps the
bound from there. -/
theorem stepKeepsThePcBound : Obligations.StepKeepsThePcBound := by
  intro s t hinv hs h
  obtain rfl | ⟨f, w, rfl⟩ | ⟨w, i, hw, hd, hexec⟩ := step_next h
  · exact hs
  · exact takeFault_pcBounded hs f w
  · have hfit := hinv.image_fits (fetch_ok hw).1
    obtain ⟨-, hpc⟩ := fetch_in_memory hw hfit
    exact exec_pcBounded (encodeOfDecodeIsTheWord w i hd).1 hs hpc hexec

/-! ## The obligations on the instructions -/

/-- Settles O25: the behaviour is over as it begins. -/
theorem nopOnlyAdvances : Obligations.NopOnlyAdvances := fun s => exec_of_run_next .nop s rfl

/-- Settles O26: the jump writes over the advance. -/
theorem jpSetsThePc : Obligations.JpSetsThePc := fun nnn s => exec_of_run_next (.jp nnn) s rfl

/-- Settles O27: the push sees the advanced pc, and the fault is taken before the advance. -/
theorem callPushesTheNextAddress : Obligations.CallPushesTheNextAddress := by
  intro nnn s
  refine ⟨fun hroom => ?room, fun hfull => ?full⟩
  case room =>
    refine (exec_of_run_next (.call nnn) s (callBehaviour_run_of_room hroom)).trans (congrArg _ ?_)
    exact State.ext_fields rfl rfl rfl (by simp) rfl rfl rfl rfl
  case full =>
    refine (exec_of_run_fault (.call nnn) s (callBehaviour_run_of_full hfull)).trans (congrArg _ ?_)
    exact State.ext_fields rfl rfl rfl rfl rfl rfl rfl (by simp [Fault.kind, Fault.info])

/-- Settles O28: on an entry the pop and the jump, on none the fault. -/
theorem retJumpsToTheNewestEntry : Obligations.RetJumpsToTheNewestEntry := by
  intro s
  refine ⟨fun older v happ => ?entry, fun hnil =>
    exec_of_run_fault .ret s (retBehaviour_run_of_nil hnil)⟩
  case entry =>
    refine (exec_of_run_next .ret s (retBehaviour_run_of_append happ)).trans (congrArg _ ?_)
    exact State.ext_fields rfl (by simp) rfl rfl rfl rfl rfl rfl

/-- Settles O29: the skip hops over one instruction from the advanced pc. -/
theorem seSkipsExactlyWhenEqual : Obligations.SeSkipsExactlyWhenEqual := by
  intro x kk s hx
  have hexec := exec_of_run_next (.se x kk) s (seBehaviour_run hx)
  refine ⟨fun heq => ?skips, fun hne => ?falls⟩
  case skips =>
    rw [advance_regs, if_pos heq] at hexec
    refine hexec.trans (congrArg _ ?_)
    exact State.ext_fields rfl (by simp; omega) rfl rfl rfl rfl rfl rfl
  case falls =>
    rw [advance_regs, if_neg hne] at hexec
    exact hexec

/-- Settles O30: in the unit the last register is register 15. -/
theorem addWritesTheSumThenTheCarry : Obligations.AddWritesTheSumThenTheCarry :=
  fun x y s hx hy => exec_of_run_next (.add x y) s (addBehaviour_run hx hy)

/-- Settles O31: register 15 holds what was written last, VX the sum unless it is register 15. -/
theorem addLeavesOtherRegisters : Obligations.AddLeavesOtherRegisters := by
  intro x y s hx hy hlen
  have ha := (s.regs.getD x 0).isLt
  have hb := (s.regs.getD y 0).isLt
  refine ⟨_, addWritesTheSumThenTheCarry x y s hx hy, by simp [hlen], ?flag, fun hne => ?sum,
    fun r hrx hr15 => ?others⟩
  case flag =>
    rw [getD_set _ _ _ _ (by simp [hlen]), if_pos rfl]
    split
    case isTrue hcarry => change 1 = _; omega
    case isFalse hno => change 0 = _; omega
  case sum =>
    rw [getD_set _ _ _ _ (by simp [hlen]), if_neg hne, getD_set _ _ _ _ (by omega), if_pos rfl,
      BitVec.toNat_add]
  case others =>
    rw [List.getElem?_set_ne (Ne.symm hr15), List.getElem?_set_ne (Ne.symm hrx)]

/-- Settles O33: a fault taken changes `RS` and `FR` alone; an instruction that completes has done what
its behaviour says. -/
theorem instructionFrames : Obligations.InstructionFrames := by
  intro i s t h
  obtain ⟨u, hu, rfl⟩ | ⟨f, rfl⟩ := exec_next h
  case inr => cases i <;> simp
  case inl =>
    cases i with
    | nop | jp => cases hu; simp
    | ret =>
      obtain ⟨older, v, happ, rfl⟩ := retBehaviour_run_next hu
      rw [advance_stack] at happ
      simp [happ]
    | call =>
      cases callBehaviour_run_next hu
      simp
    | se => obtain rfl | rfl := seBehaviour_run_next hu <;> simp
    | add x y =>
      obtain ⟨sum, carry, rfl⟩ := addBehaviour_run_next hu
      refine ⟨fun _ => rfl, rfl, rfl, fun _ => ⟨rfl, rfl⟩, rfl, fun r hrx hr15 => ?_⟩
      exact (List.getElem?_set_ne (Ne.symm hr15)).trans (List.getElem?_set_ne (Ne.symm hrx))

/-- Settles O34: the CALL left its stack with the address after it, biased, on top; the RET takes off
both the entry and the bias. -/
theorem returnUndoesItsCall : Obligations.ReturnUndoesItsCall := by
  intro c nnn s t u hcall hrs hu
  obtain ⟨called, hrun, rfl⟩ | ⟨f, -, rfl⟩ := executePhase_next hcall
  · cases callBehaviour_run_next hrun
    refine (executePhase_of_next (retBehaviour_run_of_append hu)).trans (congrArg _ ?_)
    exact State.ext_fields rfl (by simp) rfl rfl rfl rfl rfl rfl
  · cases hrs

/-! ## The catalog (R227, R142) -/

/-- Validation does not look at behaviours. -/
theorem validCatalog_map {β γ : Type} (c : Config) (f : β → γ) (catalog : List (Op β)) :
    validCatalog c (catalog.map (Op.map f)) = validCatalog c catalog := by
  simp only [validCatalog, List.all_map, List.pairwise_map]
  rfl

theorem rc6_wellFormed : rc6.all opWellFormed = true := by decide

theorem rc6_pairwise_not_overlap : rc6.Pairwise fun a b => opsOverlap a b = false := by decide

/-- A register field of RC6 has four bits. -/
theorem rc6_largestOperand_le : ∀ op ∈ rc6, ∀ o ∈ op.operands, o.tag = .register →
    largestOperand o.mask ≤ 15 := by decide

theorem registersInRange_iff {β : Type} (c : Config) (op : Op β) :
    registersInRange c op = true ↔
      ∀ o ∈ op.operands, o.tag = .register → largestOperand o.mask < c.nreg := by
  simp only [registersInRange, List.all_eq_true, decide_eq_true_eq, Int.le_sub_one_iff, Nat.cast_lt]

/-- The field `X` can name register 15, and no field names a later one. -/
theorem rc6_registersInRange_iff (c : Config) :
    rc6.all (registersInRange c) = true ↔ 16 ≤ c.nreg := by
  simp only [List.all_eq_true, registersInRange_iff]
  constructor
  case mp =>
    intro h
    have hx : largestOperand fieldX.mask = 15 := by decide
    have hlt := h opSe (row_mem_rc6 (.se 0 0)) fieldX (by simp [opSe]) rfl
    omega
  case mpr =>
    intro hreg op hop o ho htag
    have hle := rc6_largestOperand_le op hop o ho htag
    omega

/-- Settles O11: of the three conditions on RC6 only the register range depends on the parameters. -/
theorem referenceCatalogIsValidWithSixteenRegisters :
    Obligations.ReferenceCatalogIsValidWithSixteenRegisters := by
  intro c
  rw [rc6Catalog, validCatalog_map, validCatalog, rc6_wellFormed,
    decide_eq_true rc6_pairwise_not_overlap]
  exact rc6_registersInRange_iff c

end Sys2Proof.Machine
end

