-- ==== Sys2Proof/Proofs/Exceptions.lean ====
section
/-! PROOFS. Exceptions (60_exceptions.md): what a decode fault records, and what each host command makes
of a latched fault (R242, R243, R252, R257). -/

namespace Sys2Proof.Machine

/-! ## Decode faults (R242, R243) -/

/-- Settles O37: the list of matches decides which decode fault dispatch raises, and the dispatch phase
latches it as the STEP began. -/
theorem decodeFaultsRecordTheRawWord : Obligations.DecodeFaultsRecordTheRawWord := by
  intro e s w hs hw
  obtain ⟨-, latched, -⟩ := raisedFaultIsLatchedAndTheStepUndone e s hs
  refine ⟨fun hnone => ?unknown, fun htwo => ?ambiguous⟩
  case unknown =>
    have hempty : e.catalog.filter (fun op => op.matchesWord w) = [] :=
      List.filter_eq_nil_iff.2 fun op hop => by simp [hnone op hop]
    exact latched w _ hw ((dispatch_eq_unknownOpcode_iff _ w).2 hempty)
  case ambiguous => exact latched w _ hw ((dispatch_eq_ambiguousOpcode_iff _ w).2 htwo)

/-! ## Commands given while a fault is latched (R252, R257) -/

/-- The two run states that a cleared fault leaves. -/
theorem clearFault_rs_ne_faulted (s : State) : (clearFault s).rs ≠ .faulted := by
  cases h : s.loaded <;> simp [h]

/-- What a LOAD that is accepted has done: nothing, for want of a loader, or loaded its image. -/
theorem loadCommand_next {c : Config} {source : Source} {s t : State} {r : Reply}
    (h : loadCommand c source s = .next (t, r)) :
    t = s ∨ ∃ img, source = .image img ∧ t = loadImage c img s := by
  cases source with
  | noLoader => cases h; exact .inl rfl
  | image img =>
    by_cases hfit : c.loadOffset + img.length ≤ c.memSize
    · rw [loadCommand_of_fits s hfit] at h
      cases h; exact .inr ⟨img, rfl, rfl⟩
    · rw [loadCommand_of_too_large s (by omega)] at h
      cases h

/-- What a RESTORE that is accepted has done: nothing, for a mismatch, or restored its snapshot. -/
theorem restoreCommand_next {c : Config} {snap : Snapshot} {s t : State} {r : Reply}
    (h : restoreCommand c snap s = .next (t, r)) : t = s ∨ t = restoreState snap s := by
  by_cases htags : snap.id = c.archId ∧ snap.version = c.snapVersion
  · rw [restoreCommand_of_match s htags.1 htags.2] at h
    split at h
    · cases h; exact .inr rfl
    · cases h
  · rw [restoreCommand_of_mismatch s (not_and_or.1 htags)] at h
    cases h; exact .inl rfl

section
variable {e : Engine} {s : State} (hs : s.rs = .faulted)
include hs

/-- STEP and RUN, of any number of steps, only report the latched fault again (R184). -/
theorem Engine.command_step_of_faulted : e.command .step s = .next (s, stepReply s) :=
  congrArg reported (Engine.step_faulted hs)

theorem Engine.command_run_of_faulted (n : Nat) : e.command (.run n) s = .next (s, stepReply s) :=
  congrArg reported ((Engine.run_of_ne_loaded (by simp [hs]) n).trans (Engine.steps_faulted hs n))

/-- An accepted command leaves a faulted state, or is one of the three that clear the fault. -/
theorem Engine.command_next_of_faulted {cmd : Command} {t : State} {r : Reply}
    (h : e.command cmd s = .next (t, r)) :
    t = s ∨ (t.fr = none ∧ t.rs ≠ .faulted ∧
      ((∃ img, cmd = .load (.image img)) ∨ cmd = .reset ∨ ∃ snap, cmd = .restore snap)) := by
  cases cmd with
  | load source =>
    obtain hsame | ⟨img, rfl, rfl⟩ := loadCommand_next h
    · exact .inl hsame
    · exact .inr ⟨rfl, nofun, .inl ⟨img, rfl⟩⟩
  | reset => cases h; exact .inr ⟨rfl, clearFault_rs_ne_faulted _, .inr (.inl rfl)⟩
  | step => rw [Engine.command_step_of_faulted hs] at h; cases h; exact .inl rfl
  | run n => rw [Engine.command_run_of_faulted hs] at h; cases h; exact .inl rfl
  | stop => cases h; exact .inl (stopUnit_of_ne_running (by simp [hs]))
  | snapshot => cases h; exact .inl rfl
  | restore snap =>
    obtain hsame | rfl := restoreCommand_next h
    · exact .inl hsame
    · exact .inr ⟨rfl, clearFault_rs_ne_faulted _, .inr (.inr ⟨snap, rfl⟩)⟩
  | top => cases h; exact .inl rfl
  | inspect => cases h; exact .inl rfl

end

/-- Settles O59: every command in a faulted state, with the record that STEP and RUN report. -/
theorem onlyTheHostClearsALatchedFault : Obligations.OnlyTheHostClearsALatchedFault := by
  intro e s record hs hfr
  have hreply : stepReply s = .fault record := by rw [stepReply, hfr]
  rw [← hreply]
  exact ⟨fun _ _ _ => Engine.command_next_of_faulted hs, Engine.command_step_of_faulted hs,
    Engine.command_run_of_faulted hs⟩

end Sys2Proof.Machine
end
